-- ==== Sys2Proof/Word.lean ====
section
/-! DEFINITION. The word types of the SSD block (spec/00_scope.md R7, R8: bit 0 is the least significant
bit of every value). -/

namespace Sys2Proof

/-- `u8`: a segment code, a chip register offset, a bus payload byte, a chip command byte (R8). -/
abbrev Byte := BitVec 8

/-- `u16`: the word of one slot register (R20, `SLOT_W` of R5). -/
abbrev Word := BitVec 16

/-- `u64`: one command word `CW[63:0]` (R65, `CW_W` of R5). -/
abbrev CmdWord := BitVec 64

/-- The 7-bit bus address of the controller chip (R5 `BUS_ADDR`, R78). -/
abbrev BusAddr := BitVec 7

/-- The 40-bit value field `V` of SHOWNUM (R69, R71; `VAL_FMT` of R5). -/
abbrev ValueField := BitVec 40

end Sys2Proof
end

