-- ==== Sys2Proof/Config.lean ====
section
/-! DEFINITION. What an implementation fixes (spec/00_scope.md R5: the two open parameters of the block) and the free
values of the model. -/

namespace Sys2Proof

/-- The parameters fixed at construction (R5, R15, R26).  No command and no reset writes them.

* `busAddr` is `BUS_ADDR`, any 7-bit address (R5, D21).
* `segTab` is `SEGTAB[0..15]`.  The one constraint the spec places on it, `SEGTAB[d] & 0x80 = 0` (R62, D22), holds
  by type: an entry is held as its seven segment bits and read as a byte with bit 7 clear. -/
structure Config where
  busAddr : BusAddr
  segTab  : Vector (BitVec 7) 16
  deriving DecidableEq, Repr

/-- FREE VALUE.  Whether the BusAdapter performed its `n`-th write (counted from power-on), for a write past the
scripted answers of the state, "a free input of the step that no rule reads" (R195, U5), and for a write that is never
answered (R233).  It has no body, so
nothing can be proved of any of its values.  Only the chip's copy depends on it. -/
opaque Config.freeAnswer : Nat → Bool

/-- FREE VALUE.  What the chip's display register at an offset holds at power-on: "`any value`" (U11), "unspecified"
(R32), and "a model must not assume" it is zero (R223).  It has no body, so nothing can be proved of any byte of it. -/
opaque Config.freeDisplay : Nat → Byte

/-- FREE VALUE.  What each of the chip's three settings holds at power-on, by its key: "`any value`" (U11), so neither
enabled nor disabled, neither on nor off (R28 to R30, R223). -/
opaque Config.freeSetting : Nat → Byte

end Sys2Proof
end

