-- ==== Sys2Proof/Machine/Defaults.lean ====
section
/-! DEFINITION. The default values of the block's two parameters (spec/00_scope.md R5, spec/30_encoding.md R63), which
`State.reset` uses.  PRESUMED where the spec takes them from general knowledge (assumption log 1). -/

namespace Sys2Proof.Machine

/-- The common hexadecimal seven-segment font, 0 to 9 then A, b, C, d, E, F (R63).  PRESUMED (log 1): the spec marks
the table as general knowledge; its source document gives none of the sixteen values. -/
def defaultSegTab : Vector (BitVec 7) 16 :=
  #v[0x3F, 0x06, 0x5B, 0x4F, 0x66, 0x6D, 0x7D, 0x07, 0x7F, 0x6F, 0x77, 0x7C, 0x39, 0x5E, 0x79, 0x71]

/-- `BUS_ADDR`, "default 0x70" (R5). -/
def defaultBusAddr : BusAddr := 0x70

/-- The parameters of a block constructed without arguments. -/
def defaultConfig : Config := ⟨defaultBusAddr, defaultSegTab⟩

end Sys2Proof.Machine
end

