-- ==== Sys2Proof/Machine/State.lean ====
section
/-! DEFINITION. The state of the machine: the SSD block (slots, bus log, busy or idle), its parameters, what the host and
the BusAdapter will present to it, and what the controller chip has received. -/

namespace Sys2Proof.Machine

/-- The five slot registers `slot[0..4]`: D0, D1, COL, D2, D3 (R20, R21). -/
abbrev Slots := Vector Word 5

/-- A bus event, the block's only output (R78). -/
inductive BusEvent where
  /-- One write of the single command byte `c` to the chip at `a`. -/
  | cmdWrite (a : BusAddr) (c : Byte)
  /-- One write to register offset `off` of the chip at `a`, with payload `lo` then `hi`. -/
  | slotWrite (a : BusAddr) (off lo hi : Byte)
  deriving DecidableEq, Repr

/-- The BusAdapter's answer to one write (R195, R233).  The block never reads it. -/
inductive Answer where
  /-- The write was performed. -/
  | ok
  /-- The write failed: it is in the log, and the chip did not take it. -/
  | error
  /-- The write call never returns (R233): the block stays busy. -/
  | never
  deriving DecidableEq, Repr

/-- What the host can do to the block (R17, R221). -/
inductive HostInput where
  /-- Present a word on the command port (R65). -/
  | command (w : CmdWord)
  /-- Assert the reset input (R221). -/
  | reset
  deriving DecidableEq, Repr

/-- A memory: (address, byte) cells in one canonical form, addresses strictly rising (`Memory.wf`).  An address with
no cell is no register: every register the spec gives the chip has a cell, from power-on on (log 4). -/
abbrev Memory := List Host.Cell

/-- The controller chip, as far as the spec describes it (R27 to R31, R40, R201): what it has taken of the block's
writes.  It is a device outside the block; no command reads it. -/
structure Chip where
  /-- The ten display registers, by register offset (R42): offsets 0 to 9. -/
  display  : Memory
  /-- The three settings (R27), each under its key (`settingKeys`): the last command byte taken for it. -/
  settings : Memory
  deriving DecidableEq, Repr

/-- The machine's state. -/
structure State where
  /-- The DisplayBuffer (R20). -/
  slots     : Slots
  /-- Every bus event emitted since reset, oldest first (R47). -/
  busLog    : List BusEvent
  /-- A bus write has not been answered (R233): no command word is accepted. -/
  busy      : Bool
  /-- The construction parameters (R5).  Constant: nothing writes this field. -/
  config    : Config
  /-- What the host will present, next first (R18, R24: the host's command list). -/
  inputs    : List HostInput
  /-- The BusAdapter's answers to the next writes, next first (U5: a free input); past the end, `Config.freeAnswer`. -/
  answers   : List Answer
  /-- The model's own counter of bus writes since power-on, the index of `Config.freeAnswer`. -/
  nextWrite : Nat
  /-- The controller chip. -/
  chip      : Chip
  deriving DecidableEq, Repr

/-- Why the machine may stop with a fault: there is no such reason, "No command raises an exception, a trap or a
fault" (R190), so the type has no constructor.  Safe. -/
inductive Fault where
  deriving DecidableEq, Repr

/-- Why an instruction may be refused. -/
inductive Refusal where
  /-- The instruction has no meaning in the model yet; only an arm of `exec` raises it, and no arm does.  Safe. -/
  | notModelled (mnemonic : String)
  deriving DecidableEq, Repr

/-- The offsets of the chip's display registers (R42, R201). -/
def displayOffsets : List Nat := [0, 1, 2, 3, 4, 5, 6, 7, 8, 9]

/-- The keys of the chip's settings: oscillator enable (R28), display setup (R29), brightness (R30).  DESIGN CHOICE
(log 6): each is the command byte of the setting with its operand bits cleared. -/
def settingKeys : List Nat := [0x21, 0x80, 0xE0]

/-- A chip that has taken no write since power-on, when its registers came up with the bytes `display` and `setting`. -/
def Chip.poweredOn (display setting : Nat → Byte) : Chip where
  display  := displayOffsets.map fun a => (a, display a)
  settings := settingKeys.map fun k => (k, setting k)

/-- The block with parameters `c` right after reset (R32, R220): the five slots zero, the log empty, idle (R221),
nothing presented and nothing scripted, and beside it a chip whose registers came up with some bytes (R223). -/
def State.resetWith (c : Config) (display setting : Nat → Byte) : State where
  slots     := Vector.replicate 5 0
  busLog    := []
  busy      := false
  config    := c
  inputs    := []
  answers   := []
  nextWrite := 0
  chip      := .poweredOn display setting

/-- The machine right after reset, with the default parameters (R5, R63), and with ANY bytes in the chip's registers
(U11: free values). -/
def State.reset : State := State.resetWith defaultConfig Config.freeDisplay Config.freeSetting

end Sys2Proof.Machine
end

