-- ==== Sys2Proof/Machine/Flags.lean ====
section
/-! DEFINITION. The block has no flags, condition codes or predicates (spec/10_state.md R25).  What a command leaves in
their place is the label of R193: how one execution of it ended.  It is no state, no output, and no command reads it. -/

namespace Sys2Proof.Machine

/-- The named outcomes of a command (R11, R193). -/
inductive Label where
  /-- The command did what its rule says. -/
  | done
  /-- Nothing happened: an input-range error, a reserved `frac` or an ILLEGAL word. -/
  | ignored
  /-- The error pattern was substituted for a value that does not fit. -/
  | overflow
  deriving DecidableEq, Repr

/-- What executing a command gives: `return <label>`, and the state it leaves. -/
abbrev Result := Label × State

/-- A command always completes with a next state (R110, R190); its label is not part of it (R193). -/
def complete (r : Result) : Host.Outcome State Fault Refusal := .next r.2

end Sys2Proof.Machine
end

