-- ==== Sys2Proof/Syntax.lean ====
section
/-! DEFINITION. The ten commands of the SSD block (spec/30_encoding.md R65 to R71; spec/opcode_table.json has one row
for each). -/

namespace Sys2Proof

/-- The admitted bases {2, 8, 10, 16} (R5 `BASES`), selected by the 2-bit field `bsel` (R71). -/
inductive Base where
  | bin
  | oct
  | dec
  | hex
  deriving DecidableEq, Repr

/-- The commands.  Every operand has exactly the width of its field (R66 to R69, R71), so each term is a legal
command word and each operand value the encoding admits is a term. -/
inductive Instr where
  /-- INIT (R170): the power-on sequence. -/
  | init
  /-- CLEAR (R111). -/
  | clear
  /-- SETBLINK `rate` (R171). -/
  | setblink (rate : BitVec 2)
  /-- SETBRIGHT `level` (R172). -/
  | setbright (level : BitVec 4)
  /-- SHOWCOLON `show` (R113). -/
  | showcolon (on : Bool)
  /-- SHOWDIGIT `idx, val, dot` (R160). -/
  | showdigit (idx : Byte) (val : BitVec 16) (dot : Bool)
  /-- SHOWNUM `V, bsel, frac` (R130). -/
  | shownum (V : ValueField) (base : Base) (frac : BitVec 3)
  /-- SHOWERR (R150). -/
  | showerr
  /-- SETSEG `idx, code, dot` (R112). -/
  | setseg (idx : Byte) (code : Byte) (dot : Bool)
  /-- FLUSHALL (R114). -/
  | flushall
  deriving DecidableEq, Repr

end Sys2Proof
end

