-- ==== Sys2Proof/WellFormed.lean ====
section
/-! DEFINITION. Which commands have operands inside the ranges the spec gives them.  The encoding admits more (R68, R73):
a command that fails a check here is legal, decodes, and is ignored whole by its own rule (R191, R194). -/

namespace Sys2Proof

/-- `idx` names one of the four digit positions (R71: "valid when `idx < 4`"). -/
def validIndex (idx : Byte) : Bool := idx.toNat < 4

/-- `val` is a hexadecimal digit (R71: "valid when `val < 16`"). -/
def validDigit (val : BitVec 16) : Bool := val.toNat < 16

/-- `frac` is an admitted fractional-digit count (R71: "valid when `frac <= 4`"; 5, 6, 7 are reserved, R73). -/
def validFrac (frac : BitVec 3) : Bool := frac.toNat ≤ 4

/-- Every operand is in its range.  The other operands have no invalid value (R73). -/
def Instr.wellFormed : Instr → Bool
  | .init => true
  | .clear => true
  | .setblink _ => true
  | .setbright _ => true
  | .showcolon _ => true
  | .showdigit idx val _ => validIndex idx && validDigit val
  | .shownum _ _ frac => validFrac frac
  | .showerr => true
  | .setseg idx _ _ => validIndex idx
  | .flushall => true

end Sys2Proof
end

