-- ==== Sys2Proof/Decode.lean ====
section
/-! DEFINITION. The decoder (every 64-bit word is one command or ILLEGAL, spec/30_encoding.md R72), after it the encoder,
the opcode table's rows, and the assembler form of a command (R76). -/

namespace Sys2Proof

/-! ## The decoder, from the field tables of R66 to R69 -/

/-- `v[hi:lo]` (R7). -/
def CmdWord.field (w : CmdWord) (hi lo : Nat) : Nat := (w.extractLsb' lo (hi + 1 - lo)).toNat

/-- Why a word is ILLEGAL (R72). -/
inductive Illegal where
  /-- `op = CW[63:56]` is none of the ten of R70. -/
  | unassignedOpcode (op : Byte)
  /-- A bit that the format of `op` marks "must be zero" is 1. -/
  | mustBeZero (op : Byte)
  deriving DecidableEq, Repr

/-- `BASE[bsel]` as a base (R71: 0 means base 2, 1 base 8, 2 base 10, 3 base 16). -/
def baseOfSel (bsel : Nat) : Base :=
  match bsel with
  | 0 => .bin
  | 1 => .oct
  | 2 => .dec
  | _ => .hex

/-- Decoding (R72, R75): the opcode first, then the must-be-zero bits of its format, then the operand fields read as
they are (R71).  Total on all 2^64 words. -/
def decode (w : CmdWord) : Except Illegal Instr :=
  let illegal : Except Illegal Instr := .error (.mustBeZero (w.extractLsb' 56 8))
  match w.field 63 56 with
  | 0x01 => if w.field 55 0 = 0 then .ok .init else illegal
  | 0x02 => if w.field 55 0 = 0 then .ok .clear else illegal
  | 0x03 => if w.field 55 2 = 0 then .ok (.setblink (w.extractLsb' 0 2)) else illegal
  | 0x04 => if w.field 55 4 = 0 then .ok (.setbright (w.extractLsb' 0 4)) else illegal
  | 0x05 => if w.field 55 1 = 0 then .ok (.showcolon (w.getLsbD 0)) else illegal
  | 0x06 =>
    if w.field 47 41 = 0 ∧ w.field 39 16 = 0 then
      .ok (.showdigit (w.extractLsb' 48 8) (w.extractLsb' 0 16) (w.getLsbD 40))
    else illegal
  | 0x07 =>
    if w.field 53 51 = 0 ∧ w.field 47 40 = 0 then
      .ok (.shownum (w.extractLsb' 0 40) (baseOfSel (w.field 55 54)) (w.extractLsb' 48 3))
    else illegal
  | 0x08 => if w.field 55 0 = 0 then .ok .showerr else illegal
  | 0x09 =>
    if w.field 47 41 = 0 ∧ w.field 39 8 = 0 then
      .ok (.setseg (w.extractLsb' 48 8) (w.extractLsb' 0 8) (w.getLsbD 40))
    else illegal
  | 0x0A => if w.field 55 0 = 0 then .ok .flushall else illegal
  | _ => .error (.unassignedOpcode (w.extractLsb' 56 8))

/-- The word of `nbits` bits `w` as a command word: every bit above `nbits` is 0. -/
def tableWord (nbits w : Nat) : CmdWord := BitVec.ofNat 64 (w % 2 ^ nbits)

/-- The decoder on a row's word, for the host. -/
def decodeTableWord (nbits w : Nat) : Option Instr :=
  match decode (tableWord nbits w) with
  | .ok i => some i
  | .error _ => none

/-! ## The encoder, from the "encodes as" column of R76 -/

/-- `bsel` of a base (R71). -/
def Base.sel : Base → BitVec 2
  | .bin => 0
  | .oct => 1
  | .dec => 2
  | .hex => 3

/-- A flag as the one-bit field it is encoded in (R76: "flags are 0 or 1"). -/
def flagWord (b : Bool) : CmdWord := (BitVec.ofBool b).setWidth 64

/-- The command word of a command (R76; formats of R66 to R69). -/
def encode : Instr → CmdWord
  | .init => 0x0100000000000000
  | .clear => 0x0200000000000000
  | .setblink rate => 0x0300000000000000#64 ||| rate.setWidth 64
  | .setbright level => 0x0400000000000000#64 ||| level.setWidth 64
  | .showcolon on => 0x0500000000000000#64 ||| flagWord on
  | .showdigit idx val dot =>
    0x0600000000000000#64 ||| idx.setWidth 64 <<< 48 ||| flagWord dot <<< 40 ||| val.setWidth 64
  | .shownum V base frac =>
    0x0700000000000000#64 ||| base.sel.setWidth 64 <<< 54 ||| frac.setWidth 64 <<< 48 ||| V.setWidth 64
  | .showerr => 0x0800000000000000
  | .setseg idx code dot =>
    0x0900000000000000#64 ||| idx.setWidth 64 <<< 48 ||| flagWord dot <<< 40 ||| code.setWidth 64
  | .flushall => 0x0A00000000000000

/-! ## The opcode table's rows (spec/opcode_table.json, R72) -/

/-- One row: a word `w` is the command of the row when `w & mask = pattern` (R72; the table's `match` column). -/
structure Row where
  mnemonic : String
  pattern  : CmdWord
  mask     : CmdWord
  deriving DecidableEq, Repr

/-- Does the word match the row? -/
def Row.hits (r : Row) (w : CmdWord) : Bool := w &&& r.mask == r.pattern

/-- The row of a command: its `mnemonic`, `match` and `mask` in spec/opcode_table.json. -/
def Instr.row : Instr → Row
  | .init => ⟨"INIT", 0x0100000000000000, 0xFFFFFFFFFFFFFFFF⟩
  | .clear => ⟨"CLEAR", 0x0200000000000000, 0xFFFFFFFFFFFFFFFF⟩
  | .setblink _ => ⟨"SETBLINK", 0x0300000000000000, 0xFFFFFFFFFFFFFFFC⟩
  | .setbright _ => ⟨"SETBRIGHT", 0x0400000000000000, 0xFFFFFFFFFFFFFFF0⟩
  | .showcolon _ => ⟨"SHOWCOLON", 0x0500000000000000, 0xFFFFFFFFFFFFFFFE⟩
  | .showdigit _ _ _ => ⟨"SHOWDIGIT", 0x0600000000000000, 0xFF00FEFFFFFF0000⟩
  | .shownum _ _ _ => ⟨"SHOWNUM", 0x0700000000000000, 0xFF38FF0000000000⟩
  | .showerr => ⟨"SHOWERR", 0x0800000000000000, 0xFFFFFFFFFFFFFFFF⟩
  | .setseg _ _ _ => ⟨"SETSEG", 0x0900000000000000, 0xFF00FEFFFFFFFF00⟩
  | .flushall => ⟨"FLUSHALL", 0x0A00000000000000, 0xFFFFFFFFFFFFFFFF⟩

/-- The ten rows, in the table's order. -/
def opcodeTable : List Row :=
  [Instr.row .init, Instr.row .clear, Instr.row (.setblink 0), Instr.row (.setbright 0), Instr.row (.showcolon false),
   Instr.row (.showdigit 0 0 false), Instr.row (.shownum 0 .bin 0), Instr.row .showerr, Instr.row (.setseg 0 0 false),
   Instr.row .flushall]

/-- A word is legal when some row matches it, and ILLEGAL "when no row matches" (R72). -/
def legalWord (w : CmdWord) : Bool := opcodeTable.any (·.hits w)

/-! ## Assembler form (R76)

A command is written "as its mnemonic followed by its operands in the order of doc00's own operation signature";
the operands are numbers, a flag is 0 or 1, a base is written as 2, 8, 10 or 16.  Here the line is already split into
its mnemonic and its numbers, and a SHOWNUM value is given as its field (`V=0x...`). -/

/-- The number a base is written as, which is also its radix (R71, R76). -/
def Base.radix : Base → Nat
  | .bin => 2
  | .oct => 8
  | .dec => 10
  | .hex => 16

/-- One assembler line: a mnemonic and its operands. -/
structure AsmLine where
  mnemonic : String
  operands : List Nat
  deriving DecidableEq, Repr

/-- A command as an assembler line (R76). -/
def disassemble (i : Instr) : AsmLine where
  mnemonic := i.row.mnemonic
  operands :=
    match i with
    | .init => []
    | .clear => []
    | .setblink rate => [rate.toNat]
    | .setbright level => [level.toNat]
    | .showcolon on => [on.toNat]
    | .showdigit idx val dot => [idx.toNat, val.toNat, dot.toNat]
    | .shownum V base frac => [V.toNat, base.radix, frac.toNat]
    | .showerr => []
    | .setseg idx code dot => [idx.toNat, code.toNat, dot.toNat]
    | .flushall => []

/-- A base as it is written. -/
def baseOfRadix? (n : Nat) : Option Base :=
  if n = 2 then some .bin else if n = 8 then some .oct else if n = 10 then some .dec else if n = 16 then some .hex else none

/-- The command of an assembler line, if every operand fits its field (R76, with the field widths of R67 to R69). -/
def assemble (line : AsmLine) : Option Instr :=
  let (m, ops) := (line.mnemonic, line.operands)
  match ops with
  | [] =>
    if m = "INIT" then some .init
    else if m = "CLEAR" then some .clear
    else if m = "SHOWERR" then some .showerr
    else if m = "FLUSHALL" then some .flushall
    else none
  | [x] =>
    if m = "SETBLINK" ∧ x < 4 then some (.setblink (BitVec.ofNat 2 x))
    else if m = "SETBRIGHT" ∧ x < 16 then some (.setbright (BitVec.ofNat 4 x))
    else if m = "SHOWCOLON" ∧ x < 2 then some (.showcolon (x == 1))
    else none
  | [x, y, z] =>
    if m = "SHOWDIGIT" ∧ x < 256 ∧ y < 65536 ∧ z < 2 then
      some (.showdigit (BitVec.ofNat 8 x) (BitVec.ofNat 16 y) (z == 1))
    else if m = "SETSEG" ∧ x < 256 ∧ y < 256 ∧ z < 2 then
      some (.setseg (BitVec.ofNat 8 x) (BitVec.ofNat 8 y) (z == 1))
    else if m = "SHOWNUM" ∧ x < 2 ^ 40 ∧ z < 8 then
      (baseOfRadix? y).map fun b => .shownum (BitVec.ofNat 40 x) b (BitVec.ofNat 3 z)
    else none
  | _ => none

end Sys2Proof
end

