-- ==== Sys2Proof/Machine/Operands.lean ====
section
/-! DEFINITION. The pure functions of the block (spec/40_primitives.md R90 to R95, R97): the digit encoder, the slot
mappers, the bytes of a slot word and of the chip commands, and the reading of the value field. -/

namespace Sys2Proof.Machine

/-! ## Segment codes (R60 to R64, R90) -/

/-- The segments of one digit and its decimal point. -/
inductive Segment where
  | a | b | c | d | e | f | g | point
  deriving DecidableEq, Repr

/-- The bit of a segment code that lights a segment (R60). -/
def Segment.bit : Segment → Nat
  | .a => 0
  | .b => 1
  | .c => 2
  | .d => 3
  | .e => 4
  | .f => 5
  | .g => 6
  | .point => 7

/-- Does a segment code light the segment?  "A bit that is 1 means lit" (R60). -/
def lights (code : Byte) (x : Segment) : Bool := code.getLsbD x.bit

/-- `DASH`, the minus / dash / error code (R64). -/
def dash : Byte := 0x40

/-- `BLANK` (R64). -/
def blank : Byte := 0x00

/-- `COLON_ON = 1<<1` (R64). -/
def colonOn : Byte := 1 <<< 1

/-- `dot << 7`. -/
def dotBit (dot : Bool) : Byte := (BitVec.ofBool dot).setWidth 8 <<< 7

/-- `SEGTAB[d]` as a byte: bit 7 is 0 (R62). -/
def segCode (c : Config) (d : Fin 16) : Byte := c.segTab[d].setWidth 8

/-- `SegEnc(d, dot) = SEGTAB[d] | (dot << 7)` (R90). -/
def segEnc (c : Config) (d : Fin 16) (dot : Bool) : Byte := segCode c d ||| dotBit dot

/-- A digit value below 16 as an index of the table.  Callers pass a value that is below 16 (R90). -/
def digitOf (d : Nat) : Fin 16 := Fin.ofNat 16 d

/-- `zext_16` (R8). -/
def zext16 (b : Byte) : Word := b.setWidth 16

/-! ## Slot words on the bus (R42, R43, R92) -/

/-- `w[7:0]`, the first payload byte. -/
def loByte (w : Word) : Byte := w.extractLsb' 0 8

/-- `w[15:8]`, the second payload byte. -/
def hiByte (w : Word) : Byte := w.extractLsb' 8 8

/-- `Off(i) = 2*i` (R92): the chip register offset of a slot. -/
def regOff (i : Fin 5) : Byte := BitVec.ofNat 8 (2 * i.val)

/-! ## Slot positions (R21, R91, R95) -/

/-- The colon's physical index (R5 `COLON_IDX`). -/
def colonIdx : Fin 5 := 2

/-- The physical indices in ascending order, the order of a full flush (R94). -/
def physIndices : List (Fin 5) := [0, 1, 2, 3, 4]

/-- `Phys(k)`: logical digit index to physical index, past the colon slot (R91). -/
def phys (k : Fin 4) : Fin 5 := ⟨if 2 ≤ k.val then k.val + 1 else k.val, by split <;> omega⟩

/-- `Prev(p)`: the next digit position leftward of `p`, skipping the colon slot (R95). -/
def prevPos (p : Int) : Int := if p - 1 = 2 then 1 else p - 1

/-- `if p >= 0: slot[p] <- w` (R130, R141): a position left of slot 0 has no slot, and the write is discarded. -/
def writePos (p : Int) (w : Word) (sl : Slots) : Slots :=
  if 0 ≤ p then sl.setIfInBounds p.toNat w else sl

/-! ## Chip command bytes (R79 to R81) -/

/-- The oscillator-enable command byte (R79). -/
def oscOn : Byte := 0x21

/-- `0x80 | 0x01 | (rate<<1)` (R80). -/
def blinkByte (rate : BitVec 2) : Byte := 0x80 ||| 0x01 ||| rate.setWidth 8 <<< 1

/-- `0xE0 | level` (R81). -/
def brightByte (level : BitVec 4) : Byte := 0xE0 ||| level.setWidth 8

/-- The brightness set by construction (R5 `INIT_BRIGHT`). -/
def initBright : BitVec 4 := 14

/-! ## The value operand (R8, R71) -/

/-- `sint_40(V)`: the two's complement reading of the 40-bit field (R8). -/
def sint40 (V : ValueField) : Int := if V.toNat < 2 ^ 39 then V.toNat else V.toNat - 2 ^ 40

/-- The value `v = sint_40(V) / 65536` that the field stands for, an exact rational (R71).  The render computes in units
of 1/65536, the spec's own integer form (R136, R137); this is the value those units stand for. -/
def valueOf (V : ValueField) : ℚ := (sint40 V : ℚ) / 65536

/-- The field of a value written as a decimal fraction (R76): there is one when the value is a multiple of 1/65536 in
the range of R71; for any other value "the assembler must say which `V` it chose". -/
def fieldOf? (v : ℚ) : Option ValueField :=
  if (v * 65536).den = 1 ∧ -2 ^ 39 ≤ (v * 65536).num ∧ (v * 65536).num < 2 ^ 39 then
    some (BitVec.ofInt 40 (v * 65536).num)
  else none

end Sys2Proof.Machine
end

