-- ==== Sys2Proof/Machine/Ops.lean ====
section
/-! DEFINITION. The operations every command is written with: the chip's memories, the one bus operation, slot writes and
flushes (spec/40_primitives.md R93 to R97), the error pattern (R131), reset (R221) and the command port (R233).

The spec gives the block no exception entry and no return from one (R190, R198, R199).  "The nearest thing to a
handler is the local recovery of class (b), whose entire effect is the procedure ErrorPattern()" (R198): `errorPattern`. -/

namespace Sys2Proof.Machine

/-! ## Memories -/

/-- The byte at an address; `none` where there is no register. -/
def Memory.read : Memory → Nat → Option Byte
  | [], _ => none
  | (k, b) :: m, a => if k = a then some b else Memory.read m a

/-- Write one byte, keeping the addresses strictly rising. -/
def Memory.write : Memory → Nat → Byte → Memory
  | [], a, v => [(a, v)]
  | (k, b) :: m, a, v =>
    if a < k then (a, v) :: (k, b) :: m
    else if a = k then (a, v) :: m
    else (k, b) :: Memory.write m a v

/-- The canonical form: addresses strictly rising.  An unlisted address is no register and has no value, so no cell can
equal what it reads as. -/
abbrev Memory.wf (m : Memory) : Prop := m.Pairwise fun x y => x.1 < y.1

/-! ## The controller chip -/

/-- Which of `settingKeys` a command byte sets (R28 whole, R29 and R30 by the opcode in bits 7:4); `none` for a byte that
is none of the three (log 6). -/
def settingKey? (c : Byte) : Option Nat :=
  if c = oscOn then some 0x21
  else if c.extractLsb' 4 4 = 0b1000 then some 0x80
  else if c.extractLsb' 4 4 = 0b1110 then some 0xE0
  else none

/-- What the chip keeps of a write it takes (R27 to R31, R52).  The payload's second byte lands at the next offset
(R42; PRESUMED, log 5).  DESIGN CHOICE (log 18): the chip takes a command byte whatever its oscillator setting holds;
R225 leaves that open. -/
def Chip.take (e : BusEvent) (c : Chip) : Chip :=
  match e with
  | .slotWrite _ off lo hi => { c with display := (c.display.write off.toNat lo).write (off.toNat + 1) hi }
  | .cmdWrite _ b =>
    match settingKey? b with
    | some k => { c with settings := c.settings.write k b }
    | none => c

/-- The bus address and the bytes of an event on the wire (R82; PRESUMED, log 5).  Nothing in the machine uses it. -/
def BusEvent.wire : BusEvent → BusAddr × List Byte
  | .cmdWrite a c => (a, [c])
  | .slotWrite a off lo hi => (a, [off, lo, hi])

/-! ## The bus -/

/-- Does the chip take the next bus write?  As its scripted answer says; where there is no script, and where the answer
never comes and the spec does not say whether the write was made, the free value decides (R195, U5; log 3, log 9). -/
def State.nextPerformed (s : State) : Bool :=
  match s.answers with
  | .ok :: _ => true
  | .error :: _ => false
  | .never :: _ => Config.freeAnswer s.nextWrite
  | [] => Config.freeAnswer s.nextWrite

/-- One BusAdapter write (R44, R96).  The event enters the log whatever the answer is (R195); the chip takes the write
only if it was performed (R31); and if the answer never comes the block stays busy, and nothing of the command after
this write happens (R48, R233). -/
def State.busWrite (e : BusEvent) (s : State) : State :=
  if s.busy then s else
  { s with
    busLog    := s.busLog ++ [e]
    busy      := s.answers.head? == some .never
    answers   := s.answers.tail
    nextWrite := s.nextWrite + 1
    chip      := if s.nextPerformed then s.chip.take e else s.chip }

/-- `MemWrite(off, 2, w)` (R44): low byte, then high byte (R43). -/
def State.memWrite (off : Byte) (w : Word) (s : State) : State :=
  s.busWrite (.slotWrite s.config.busAddr off (loByte w) (hiByte w))

/-- `CmdByte(c)` (R96). -/
def State.cmdByte (c : Byte) (s : State) : State :=
  s.busWrite (.cmdWrite s.config.busAddr c)

/-! ## Slots -/

/-- A change of the DisplayBuffer.  It does not happen once the command is held up at an unanswered write (R233). -/
def State.setSlots (f : Slots → Slots) (s : State) : State :=
  if s.busy then s else { s with slots := f s.slots }

/-- `slot[i] <- w` (R9). -/
def State.setSlot (i : Fin 5) (w : Word) (s : State) : State := s.setSlots (·.set i w)

/-- `for i = 0 to 4: slot[i] <- w`. -/
def State.fillSlots (w : Word) (s : State) : State := s.setSlots fun _ => Vector.replicate 5 w

/-- `FlushSlot(i)` (R93). -/
def State.flushSlot (i : Fin 5) (s : State) : State := s.memWrite (regOff i) s.slots[i]

/-- `FlushAll()` (R94): five writes, ascending physical index. -/
def State.flushAll (s : State) : State := physIndices.foldl (fun t i => t.flushSlot i) s

/-- `WriteDigit(k, code, dot)` (R97). -/
def State.writeDigit (k : Fin 4) (code : Byte) (dot : Bool) (s : State) : State :=
  (s.setSlot (phys k) (zext16 (code ||| dotBit dot))).flushSlot (phys k)

/-- `ErrorPattern()` (R131): all five slots, the colon slot among them. -/
def State.errorPattern (s : State) : State := (s.fillSlots (zext16 dash)).flushAll

/-! ## Reset and the command port -/

/-- The reset input (R221): the block to the state of R220, idle.  It sends nothing, and it reaches neither the chip
nor the parameters nor what the host and the BusAdapter hold. -/
def State.assertReset (s : State) : State :=
  { s with slots := Vector.replicate 5 0, busLog := [], busy := false }

/-- The host's next input, and the state with it taken off the list. -/
def State.nextInput (s : State) : Option (HostInput × State) :=
  match s.inputs with
  | [] => none
  | x :: rest => some (x, { s with inputs := rest })

/-- An ILLEGAL word "is executed as a no-op" with label `Ignored` (R72, R194). -/
def State.ignoreWord (s : State) : State := s

end Sys2Proof.Machine
end

