-- ==== Sys2Proof/Machine/Buffer.lean ====
section
/-! DEFINITION. The DisplayBuffer commands CLEAR, SETSEG, SHOWCOLON, FLUSHALL (spec/41_buffer_ops.md). -/

namespace Sys2Proof.Machine

/-- CLEAR (R111). -/
def clear (s : State) : Result := (.done, (s.fillSlots (zext16 blank)).flushAll)

def execClear (s : State) : Host.Outcome State Fault Refusal := complete (clear s)

/-- SETSEG `idx, code, dot` (R112): any 8-bit code; only the index is checked. -/
def setSeg (idx code : Byte) (dot : Bool) (s : State) : Result :=
  if h : idx.toNat < 4 then (.done, s.writeDigit ⟨idx.toNat, h⟩ code dot) else (.ignored, s)

def execSetSeg (idx code : Byte) (dot : Bool) (s : State) : Host.Outcome State Fault Refusal :=
  complete (setSeg idx code dot s)

/-- SHOWCOLON `show` (R113): the whole colon word is replaced. -/
def showColon (on : Bool) (s : State) : Result :=
  (.done, (s.setSlot colonIdx (zext16 (if on then colonOn else blank))).flushSlot colonIdx)

def execShowColon (on : Bool) (s : State) : Host.Outcome State Fault Refusal := complete (showColon on s)

/-- FLUSHALL (R114). -/
def flushAllCmd (s : State) : Result := (.done, s.flushAll)

def execFlushAll (s : State) : Host.Outcome State Fault Refusal := complete (flushAllCmd s)

end Sys2Proof.Machine
end

