-- ==== Sys2Proof/Machine/ChipControl.lean ====
section
/-! DEFINITION. The chip control commands INIT, SETBLINK, SETBRIGHT (spec/44_chip_control.md). -/

namespace Sys2Proof.Machine

/-- INIT (R170): oscillator on, blink off, brightness 14, then the clear and its one flush, eight events in all. -/
def initCmd (s : State) : Result :=
  (.done,
    ((((s.cmdByte oscOn).cmdByte (blinkByte 0)).cmdByte (brightByte initBright)).fillSlots (zext16 blank)).flushAll)

def execInit (s : State) : Host.Outcome State Fault Refusal := complete (initCmd s)

/-- SETBLINK `rate` (R171): the block keeps no copy of the rate. -/
def setBlink (rate : BitVec 2) (s : State) : Result := (.done, s.cmdByte (blinkByte rate))

def execSetBlink (rate : BitVec 2) (s : State) : Host.Outcome State Fault Refusal := complete (setBlink rate s)

/-- SETBRIGHT `level` (R172): the block keeps no copy of the level. -/
def setBright (level : BitVec 4) (s : State) : Result := (.done, s.cmdByte (brightByte level))

def execSetBright (level : BitVec 4) (s : State) : Host.Outcome State Fault Refusal := complete (setBright level s)

end Sys2Proof.Machine
end

