-- ==== Sys2Proof/Machine/Digit.lean ====
section
/-! DEFINITION. The direct digit command SHOWDIGIT (spec/43_direct_digit.md). -/

namespace Sys2Proof.Machine

/-- SHOWDIGIT `idx, val, dot` (R160 to R162): both checks are unsigned, on the whole fields; `val` is not reduced. -/
def showDigit (idx : Byte) (val : BitVec 16) (dot : Bool) (s : State) : Result :=
  if h : idx.toNat < 4 then
    if hv : val.toNat < 16 then
      (.done, s.writeDigit ⟨idx.toNat, h⟩ (segCode s.config ⟨val.toNat, hv⟩) dot)
    else (.ignored, s)
  else (.ignored, s)

def execShowDigit (idx : Byte) (val : BitVec 16) (dot : Bool) (s : State) : Host.Outcome State Fault Refusal :=
  complete (showDigit idx val dot s)

end Sys2Proof.Machine
end

