-- ==== Sys2Proof/Machine/Render.lean ====
section
/-! DEFINITION. The NumericRenderer commands SHOWNUM and SHOWERR (spec/42_render.md).

All quantities are non-negative integers in units of 1/65536 (R136, R137: the spec's integer form of the exact
rationals of R130): `A = |sint_40(V)|` stands for `a = A/65536`, and `scaled A b F` for `sv = a*b^F + 1/2`. -/

namespace Sys2Proof.Machine

/-- `neg = (v < 0)`, on the value as given (R132). -/
def isNeg (V : ValueField) : Bool := sint40 V < 0

/-- `A = |sint_40(V)|`: the magnitude `a = |v|` in units of 1/65536 (R132, R136). -/
def magnitude (V : ValueField) : Nat := (sint40 V).natAbs

/-- `avail`: 3 digit slots when one is reserved for the minus sign, else 4 (R132). -/
def availDigits (neg : Bool) : Nat := if neg then 3 else 4

/-- `limit = base^avail` (R133). -/
def limitOf (b : Nat) (neg : Bool) : Nat := b ^ availDigits neg

/-- `sv = a * base^F + 1/2`, in units of 1/65536 (R133). -/
def scaled (A b F : Nat) : Nat := A * b ^ F + 32768

/-- `sv < limit`. -/
def fitsLimit (A b F limit : Nat) : Bool := scaled A b F < limit * 65536

/-- The shedding loop (R134): `while sv >= limit and F > 0: F <- F - 1`, from `F = frac`. -/
def shed (A b limit : Nat) : Nat → Nat
  | 0 => 0
  | F + 1 => if fitsLimit A b (F + 1) limit then F + 1 else shed A b limit F

/-- `n = floor(sv)` (R137). -/
def printedInt (A b F : Nat) : Nat := scaled A b F / 65536

/-- The digit emission loop (R138 to R140): `repeat ... while (i <= F or n > 0)`, at most 5 passes (R146, the fuel).
Answers the position after the last digit, and the buffer. -/
def emitDigits (c : Config) (b F : Nat) : Nat → Nat → Int → Nat → Slots → Int × Slots
  | 0, _, p, _, sl => (p, sl)
  | fuel + 1, n, p, i, sl =>
    let dp : Bool := F ≠ 0 ∧ i = F
    let sl' := writePos p (zext16 (segEnc c (digitOf (n % b)) dp)) sl
    if i + 1 ≤ F ∨ 0 < n / b then emitDigits c b F fuel (n / b) (prevPos p) (i + 1) sl' else (prevPos p, sl')

/-- The sign digit (R142). -/
def emitSign (neg : Bool) (p : Int) (sl : Slots) : Int × Slots :=
  if neg then (prevPos p, writePos p (zext16 dash) sl) else (p, sl)

/-- The leading-slot clear (R143): `while p >= 0`, at most 3 passes (the fuel). -/
def clearLeading : Nat → Int → Slots → Slots
  | 0, _, sl => sl
  | fuel + 1, p, sl => if 0 ≤ p then clearLeading fuel (prevPos p) (writePos p (zext16 blank) sl) else sl

/-- Steps 4 to 6 of the render (R130): the buffer after digits, sign and leading clear.  Pure: nothing is sent. -/
def renderSlots (c : Config) (b : Nat) (neg : Bool) (F n : Nat) (sl : Slots) : Slots :=
  let digits := emitDigits c b F 5 n 4 0 sl
  let signed := emitSign neg digits.1 digits.2
  clearLeading 3 signed.1 signed.2

/-- SHOWNUM `V, bsel, frac` (R130). -/
def showNum (V : ValueField) (base : Base) (frac : BitVec 3) (s : State) : Result :=
  if 4 < frac.toNat then (.ignored, s)
  else
    let b := base.radix
    let neg := isNeg V
    let A := magnitude V
    let F := shed A b (limitOf b neg) frac.toNat
    if fitsLimit A b F (limitOf b neg) then
      (.done, (s.setSlots (renderSlots s.config b neg F (printedInt A b F))).flushAll)
    else (.overflow, s.errorPattern)

def execShowNum (V : ValueField) (base : Base) (frac : BitVec 3) (s : State) : Host.Outcome State Fault Refusal :=
  complete (showNum V base frac s)

/-- SHOWERR (R150). -/
def showErr (s : State) : Result := (.done, s.errorPattern)

def execShowErr (s : State) : Host.Outcome State Fault Refusal := complete (showErr s)

end Sys2Proof.Machine
end

