-- ==== Sys2Proof/Machine/Dispatch.lean ====
section
/-! DEFINITION. One arm per command: `exec` dispatches, each meaning is a definition of its own. -/

namespace Sys2Proof.Machine

def exec (i : Instr) (s : State) : Host.Outcome State Fault Refusal :=
  match i with
  | .init => Sys2Proof.Machine.execInit s
  | .clear => Sys2Proof.Machine.execClear s
  | .setblink rate => Sys2Proof.Machine.execSetBlink rate s
  | .setbright level => Sys2Proof.Machine.execSetBright level s
  | .showcolon on => Sys2Proof.Machine.execShowColon on s
  | .showdigit idx val dot => Sys2Proof.Machine.execShowDigit idx val dot s
  | .shownum V base frac => Sys2Proof.Machine.execShowNum V base frac s
  | .showerr => Sys2Proof.Machine.execShowErr s
  | .setseg idx code dot => Sys2Proof.Machine.execSetSeg idx code dot s
  | .flushall => Sys2Proof.Machine.execFlushAll s

end Sys2Proof.Machine
end

