-- ==== Sys2Proof/Machine/Step.lean ====
section
/-! DEFINITION. One step of the machine: one input of the host, handled whole (spec/70_reset_and_hazards.md R232). -/

namespace Sys2Proof.Machine

/-- One step.

* Reset is taken at any time and leaves the block idle (R221).
* A command word is accepted only when the block is idle; it is executed to completion, or ignored if it is ILLEGAL
  (R65, R72, R233).
* With no input, and while a bus write is unanswered, the block does nothing (R222, R233). -/
def step (s : State) : Host.Outcome State Fault Refusal :=
  match s.nextInput with
  | none => .next s
  | some (.reset, s') => .next s'.assertReset
  | some (.command w, s') =>
    if s.busy then .next s
    else
      match decode w with
      | .ok i => exec i s'
      | .error _ => .next s'.ignoreWord

/-- The state with one word of `nbits` bits presented next to an idle block: `step` runs exactly it. -/
def State.withFetchWord (s : State) (nbits w : Nat) : State :=
  { s with inputs := .command (tableWord nbits w) :: s.inputs, busy := false }

end Sys2Proof.Machine
end

