-- ==== Sys2Proof/Machine/Labels.lean ====
section
/-! DEFINITION. The label each command returns (spec/60_exceptions.md R193), read off the same meanings as `exec`. -/

namespace Sys2Proof.Machine

/-- The label of one execution of a command. -/
def labelOf (i : Instr) (s : State) : Label :=
  match i with
  | .init => (initCmd s).1
  | .clear => (clear s).1
  | .setblink rate => (setBlink rate s).1
  | .setbright level => (setBright level s).1
  | .showcolon on => (showColon on s).1
  | .showdigit idx val dot => (showDigit idx val dot s).1
  | .shownum V base frac => (showNum V base frac s).1
  | .showerr => (showErr s).1
  | .setseg idx code dot => (setSeg idx code dot s).1
  | .flushall => (flushAllCmd s).1

/-- The label of executing a word: an ILLEGAL word is always `Ignored` (R72, R193). -/
def wordLabel (w : CmdWord) (s : State) : Label :=
  match decode w with
  | .ok i => labelOf i s
  | .error _ => .ignored

end Sys2Proof.Machine
end

