-- ==== Sys2Proof/Safety.lean ====
section
/-! DEFINITION. The terms the statements use: what the BusAdapter will answer, what a command's whole effect is, the
closed form of a render (spec/42_render.md R136, R137, R147) over exact rationals, and the invariants. -/

namespace Sys2Proof.Machine

/-! ## What the BusAdapter will answer -/

/-- The block is idle, and none of its next `n` bus writes is left unanswered: the assumption every rule of a command
makes (R233). -/
abbrev State.answered (s : State) (n : Nat) : Prop :=
  s.busy = false ∧ ∀ a ∈ s.answers.take n, a ≠ .never

/-- The block is idle, its next `n` bus writes are answered, and the one after them never is (R233). -/
abbrev State.heldAt (s : State) (n : Nat) : Prop :=
  s.answered n ∧ s.answers[n]? = some .never

/-- The next `n` bus writes are all performed. -/
abbrev State.performed (s : State) (n : Nat) : Prop :=
  n ≤ s.answers.length ∧ ∀ a ∈ s.answers.take n, a = .ok

/-- The next `n` bus writes all fail. -/
abbrev State.failed (s : State) (n : Nat) : Prop :=
  n ≤ s.answers.length ∧ ∀ a ∈ s.answers.take n, a = .error

/-! ## The whole effect of a command whose writes are answered -/

/-- The chip after the writes `es`, of which it takes those that the answers `as` say were performed; past the end of
`as` the free answers decide, from the `n`-th on. -/
def Chip.afterWrites (n : Nat) (as : List Answer) : List BusEvent → Chip → Chip
  | [], c => c
  | e :: es, c =>
    let performed : Bool :=
      match as with
      | a :: _ => a = .ok
      | [] => Config.freeAnswer n
    Chip.afterWrites (n + 1) as.tail es (if performed then c.take e else c)

/-- `s` after a command that left the slots `sl` and emitted the events `es`, every write answered: the slots and the
log are the command's, each write has used up one answer, the chip has what was performed, and nothing else differs. -/
def State.after (s : State) (sl : Slots) (es : List BusEvent) : State :=
  { s with
    slots     := sl
    busLog    := s.busLog ++ es
    answers   := s.answers.drop es.length
    nextWrite := s.nextWrite + es.length
    chip      := s.chip.afterWrites s.nextWrite s.answers es }

/-- The five events of a full flush of the slots `sl` to the chip at `a` (R94, R114). -/
def flushEvents (a : BusAddr) (sl : Slots) : List BusEvent :=
  [.slotWrite a 0 (sl[0].extractLsb' 0 8) (sl[0].extractLsb' 8 8),
   .slotWrite a 2 (sl[1].extractLsb' 0 8) (sl[1].extractLsb' 8 8),
   .slotWrite a 4 (sl[2].extractLsb' 0 8) (sl[2].extractLsb' 8 8),
   .slotWrite a 6 (sl[3].extractLsb' 0 8) (sl[3].extractLsb' 8 8),
   .slotWrite a 8 (sl[4].extractLsb' 0 8) (sl[4].extractLsb' 8 8)]

/-- How many bus events a command emits: none when it is ignored, else 1, 5 or 8 (spec/95_test_vectors.md, the
properties of every program). -/
def busWrites (i : Instr) : Nat :=
  if i.wellFormed then
    match i with
    | .init => 8
    | .clear => 5
    | .setblink _ => 1
    | .setbright _ => 1
    | .showcolon _ => 1
    | .showdigit _ _ _ => 1
    | .shownum _ _ _ => 5
    | .showerr => 5
    | .setseg _ _ _ => 1
    | .flushall => 5
  else 0

/-! ## The render in closed form, over exact rationals -/

/-- `sv < limit` for the value `v` at `F` fractional digits: `|v| * base^F + 1/2 < base^avail` (R133). -/
abbrev fitsAt (v : ℚ) (b F : Nat) : Prop :=
  |v| * (b : ℚ) ^ F + 1 / 2 < (b : ℚ) ^ (if v < 0 then 3 else 4)

/-- The final `F`: "the largest integer in 0 to `frac` with `a*base^F + 1/2 < base^avail`" (R136). -/
def finalF (v : ℚ) (b frac : Nat) : Nat := Nat.findGreatest (fun F => fitsAt v b F) frac

/-- The printed integer `n = floor(a*base^F + 1/2)` (R137). -/
def finalN (v : ℚ) (b F : Nat) : Nat := ⌊|v| * (b : ℚ) ^ F + 1 / 2⌋₊

/-- The number of digits emitted, `K = max(F + 1, ndig(n))` (R140). -/
def digitCount (b F n : Nat) : Nat := max (F + 1) (Nat.digits b n).length

/-- `P = [4, 3, 1, 0]`: the digit positions from the right (R147). -/
def digitPos (j : Fin 4) : Fin 5 :=
  match j with
  | 0 => 4
  | 1 => 3
  | 2 => 1
  | 3 => 0

/-- `slot[P[j]]` after a render (R147): a digit, with the point on digit `F` when `F` is not 0; then the minus sign of a
negative value; then blanks. -/
def renderedWord (c : Config) (neg : Bool) (b F n : Nat) (j : Nat) : Word :=
  let k := digitCount b F n
  if j < k then
    zext16 (segCode c (digitOf (n / b ^ j % b)) ||| (if F ≠ 0 ∧ j = F then 0x80 else 0x00))
  else if neg ∧ j = k then 0x0040
  else 0x0000

/-- The slots after a render that starts from `sl` (R147): the four digit slots by `renderedWord`, the colon slot as it
was. -/
def renderedSlots (c : Config) (v : ℚ) (b frac : Nat) (sl : Slots) : Slots :=
  let F := finalF v b frac
  let w := renderedWord c (v < 0) b F (finalN v b F)
  #v[w 3, w 2, sl[2], w 1, w 0]

/-- Every emitted digit and the sign has a slot: `F + 1 + (neg ? 1 : 0) <= 4` (R141 `Fits`).  What a render shows when
this fails rests on the spec's own decision D17. -/
abbrev rendersWithinSlots (v : ℚ) (b frac : Nat) : Prop :=
  finalF v b frac + 1 + (if v < 0 then 1 else 0) ≤ 4

/-! ## Invariants -/

/-- Bits 15 to 8 of every slot are 0 (R23). -/
abbrev State.highBytesZero (s : State) : Prop := ∀ i : Fin 5, hiByte s.slots[i] = 0

/-- The command bytes the block can send (R53). -/
def commandBytes : List Byte :=
  [0x21, 0x81, 0x83, 0x85, 0x87, 0xE0, 0xE1, 0xE2, 0xE3, 0xE4, 0xE5, 0xE6, 0xE7, 0xE8, 0xE9, 0xEA, 0xEB, 0xEC, 0xED,
   0xEE, 0xEF]

/-- An event the block can emit: to `BUS_ADDR` (R78), a byte of R53 or a slot write at an offset of R42 whose second
payload byte is 0 (R23). -/
def BusEvent.legal (c : Config) : BusEvent → Bool
  | .cmdWrite a b => a = c.busAddr && commandBytes.contains b
  | .slotWrite a off _ hi => a = c.busAddr && [0, 2, 4, 6, 8].contains off && hi = 0

/-- Every event in the log is legal. -/
abbrev State.logLegal (s : State) : Prop := ∀ e ∈ s.busLog, e.legal s.config = true

/-- The payload of the last slot write at an offset in a log. -/
def lastPayload (off : Byte) (log : List BusEvent) : Option (Byte × Byte) :=
  log.foldl
    (fun last e =>
      match e with
      | .slotWrite _ o lo hi => if o = off then some (lo, hi) else last
      | .cmdWrite _ _ => last)
    none

/-- "the buffer mirrors what was last sent" (R31, R52): while no write is outstanding, the last slot write at each
offset carries the slot's own bytes. -/
abbrev State.mirrored (s : State) : Prop :=
  s.busy = false → ∀ (i : Fin 5) (p : Byte × Byte),
    lastPayload (regOff i) s.busLog = some p → p = (loByte s.slots[i], hiByte s.slots[i])

/-- The chip's registers hold the last slot write at each offset (R52). -/
abbrev State.chipMirrored (s : State) : Prop :=
  ∀ (i : Fin 5) (p : Byte × Byte), lastPayload (regOff i) s.busLog = some p →
    s.chip.display.read (2 * i.val) = some p.1 ∧ s.chip.display.read (2 * i.val + 1) = some p.2

/-- The chip's memories are in canonical form, and it has exactly the registers the spec gives it, each with a value:
the display registers at offsets 0 to 9 (R40, R42) and the three settings (R27). -/
abbrev State.chipCanonical (s : State) : Prop :=
  s.chip.display.wf ∧ s.chip.settings.wf ∧
  s.chip.display.map (·.1) = displayOffsets ∧ s.chip.settings.map (·.1) = settingKeys

/-- Two states of one block that differ at most in what the BusAdapter answers and what the chip has taken. -/
structure State.sameBlock (s s' : State) : Prop where
  slots  : s.slots = s'.slots
  busLog : s.busLog = s'.busLog
  busy   : s.busy = s'.busy
  config : s.config = s'.config
  inputs : s.inputs = s'.inputs

end Sys2Proof.Machine
end

