-- ==== Sys2Proof/Certificates/Slice0/Obligations.lean ====
section
/-! DEFINITION. The statements for the provers, in the order of OBLIGATIONS.json. -/

open Sys2Proof Sys2Proof.Machine

/-! ## Encoding -/

/-- Decoding the word of any command gives that command back, at every operand value. -/
def Obligations.DecodeOfEncodeIsTheCommand : Prop :=
  ∀ i : Instr, decode (encode i) = .ok i

/-- A word that decodes is the encoding of what it decodes to: no bit of it is ignored and no second word executes as
the same command (R74). -/
def Obligations.DecodedWordIsItsEncoding : Prop :=
  ∀ (w : CmdWord) (i : Instr), decode w = .ok i → encode i = w

/-- The decoder, written from the field tables, accepts exactly the words that a row of the opcode table matches, and
answers the command of that row (R72). -/
def Obligations.DecoderAcceptsExactlyTheTableRows : Prop :=
  (∀ w : CmdWord, legalWord w = true → ∃ i, decode w = .ok i) ∧
  ∀ (w : CmdWord) (i : Instr), decode w = .ok i → i.row ∈ opcodeTable ∧ i.row.hits w = true

/-- "no two rows can match one word" (R72). -/
def Obligations.NoTwoTableRowsMatchOneWord : Prop :=
  ∀ r₁ ∈ opcodeTable, ∀ r₂ ∈ opcodeTable, ∀ w : CmdWord, r₁.hits w = true → r₂.hits w = true → r₁ = r₂

/-- Words written out in the spec's test vectors decode to the commands they stand for. -/
def Obligations.SpecWordsDecodeToTheirCommands : Prop :=
  decode 0x0100000000000000 = .ok .init ∧
  decode 0x0300000000000002 = .ok (.setblink 2) ∧
  decode 0x0602010000000003 = .ok (.showdigit 2 3 true) ∧
  decode 0x078200FFFFF38000 = .ok (.shownum 0xFFFFF38000 .dec 2) ∧
  decode 0x09FF000000000001 = .ok (.setseg 255 0x01 false) ∧
  decode 0x0000000000000000 = .error (.unassignedOpcode 0) ∧
  decode 0x0600000000010001 = .error (.mustBeZero 0x06)

/-- A command written as an assembler line is read back as the same command (R76). -/
def Obligations.AssembledLineIsTheCommand : Prop :=
  ∀ i : Instr, assemble (disassemble i) = some i

/-- The field of a value written as a decimal fraction stands for that value, and every field's value is written back as
that field (R71, R76).  That a value with no exact field gets none is the model's choice (log 17): R76 lets an assembler
choose a field for it and say which. -/
def Obligations.DecimalValueHasOneField : Prop :=
  (∀ (v : ℚ) (V : ValueField), fieldOf? v = some V → valueOf V = v) ∧ ∀ V : ValueField, fieldOf? (valueOf V) = some V

/-! ## One step -/

/-- A word presented to an idle block that decodes to `i`: the step takes the word off the host's list and is `exec i`. -/
def Obligations.StepRunsTheDecodedCommand : Prop :=
  ∀ (s : State) (w : CmdWord) (rest : List HostInput) (i : Instr),
    s.inputs = .command w :: rest → s.busy = false → decode w = .ok i →
    step s = exec i { s with inputs := rest }

/-- An ILLEGAL word, one that no row of the table matches, is taken off the host's list and changes nothing else; its
label is `Ignored` (R72, R193). -/
def Obligations.IllegalWordChangesNothing : Prop :=
  ∀ (s : State) (w : CmdWord) (rest : List HostInput),
    s.inputs = .command w :: rest → s.busy = false → legalWord w = false →
    step s = .next { s with inputs := rest } ∧ wordLabel w s = .ignored

/-- With no input the block stays as it is; while a bus write is unanswered it accepts no command word, and no command
could change it (R233). -/
def Obligations.WaitingBlockDoesNothing : Prop :=
  (∀ s : State, s.inputs = [] → step s = .next s) ∧
  (∀ (s : State) (w : CmdWord) (rest : List HostInput),
    s.inputs = .command w :: rest → s.busy = true → step s = .next s) ∧
  ∀ (i : Instr) (s : State), s.busy = true → exec i s = .next s

/-- The reset input, taken even by a busy block, gives the reset state of the block and makes it idle; nothing is sent,
so the chip and the answers to come are as they were (R221, the spec's decision D24). -/
def Obligations.ResetInputRestoresTheResetState : Prop :=
  ∀ (s : State) (rest : List HostInput), s.inputs = .reset :: rest →
    ∃ t, step s = .next t ∧
      (∀ i : Fin 5, t.slots[i] = 0) ∧ t.busLog = [] ∧ t.busy = false ∧ t.inputs = rest ∧
      t.config = s.config ∧ t.chip = s.chip ∧ t.answers = s.answers ∧ t.nextWrite = s.nextWrite

/-- After reset, whatever the parameters and whatever the chip's registers hold, all five slots are 0x0000 and the bus
log is empty (R220). -/
def Obligations.ResetStateIsZeroedAndSilent : Prop :=
  ∀ (c : Config) (d k : Nat → Byte) (s : State), s = State.resetWith c d k →
    s.slots[0] = 0x0000 ∧ s.slots[1] = 0x0000 ∧ s.slots[2] = 0x0000 ∧ s.slots[3] = 0x0000 ∧ s.slots[4] = 0x0000 ∧
    s.busLog = []

/-- No command and no step ends in a fault or a refusal (R190). -/
def Obligations.EveryCommandAndStepAnswersNext : Prop :=
  (∀ (i : Instr) (s : State), ∃ t, exec i s = .next t) ∧ ∀ s : State, ∃ t, step s = .next t

/-! ## DisplayBuffer and direct digit commands -/

/-- CLEAR (R111): its word, its whole effect (all five slots zero, five events, nothing else) and its label. -/
def Obligations.ClearZeroesAndFlushesAllSlots : Prop :=
  encode .clear = 0x0200000000000000 ∧
  ∀ s : State, s.answered 5 →
    exec .clear s =
      .next (s.after #v[0, 0, 0, 0, 0]
        [.slotWrite s.config.busAddr 0 0x00 0x00, .slotWrite s.config.busAddr 2 0x00 0x00,
         .slotWrite s.config.busAddr 4 0x00 0x00, .slotWrite s.config.busAddr 6 0x00 0x00,
         .slotWrite s.config.busAddr 8 0x00 0x00]) ∧
    labelOf .clear s = .done

/-- SETSEG (R112, the spec's decision D13): a valid index stores `code | dot<<7` in the slot past the colon and sends
that slot alone; an invalid index does nothing. -/
def Obligations.SetSegStoresTheRawCodeInOneDigitSlot : Prop :=
  ∀ (s : State) (idx code : Byte) (dot : Bool),
    (idx.toNat < 4 → s.answered 1 → ∀ i : Fin 5, i.val = (if 2 ≤ idx.toNat then idx.toNat + 1 else idx.toNat) →
      exec (.setseg idx code dot) s =
        .next (s.after (s.slots.set i (BitVec.setWidth 16 (code ||| (if dot then 0x80 else 0x00))))
          [.slotWrite s.config.busAddr (BitVec.ofNat 8 (2 * i.val)) (code ||| (if dot then 0x80 else 0x00)) 0x00]) ∧
      labelOf (.setseg idx code dot) s = .done) ∧
    (4 ≤ idx.toNat → exec (.setseg idx code dot) s = .next s ∧ labelOf (.setseg idx code dot) s = .ignored)

/-- SHOWCOLON (R113): its word; the whole colon word becomes 0x0002 or 0; that slot alone is sent. -/
def Obligations.ShowColonReplacesTheColonWord : Prop :=
  encode (.showcolon true) = 0x0500000000000001 ∧ encode (.showcolon false) = 0x0500000000000000 ∧
  ∀ (s : State) (on : Bool), s.answered 1 →
    exec (.showcolon on) s =
      .next (s.after (s.slots.set 2 (if on then 0x0002 else 0x0000))
        [.slotWrite s.config.busAddr 4 (if on then 0x02 else 0x00) 0x00]) ∧
    labelOf (.showcolon on) s = .done

/-- FLUSHALL (R114, the spec's decision D13): no slot changes; the five slots are sent in ascending order. -/
def Obligations.FlushAllSendsTheFiveSlots : Prop :=
  ∀ s : State, s.answered 5 →
    exec .flushall s = .next (s.after s.slots (flushEvents s.config.busAddr s.slots)) ∧
    labelOf .flushall s = .done

/-- SHOWDIGIT (R160): its word; valid operands store `SEGTAB[val] | dot<<7` in the slot past the colon and send that
slot alone; any other operands do nothing. -/
def Obligations.ShowDigitStoresTheEncodedDigit : Prop :=
  ∀ (s : State) (idx : Byte) (val : BitVec 16) (dot : Bool),
    encode (.showdigit idx val dot) =
      0x0600000000000000#64 ||| BitVec.ofNat 64 (idx.toNat * 2 ^ 48 + dot.toNat * 2 ^ 40 + val.toNat) ∧
    (idx.toNat < 4 → ∀ hv : val.toNat < 16, s.answered 1 →
      ∀ i : Fin 5, i.val = (if 2 ≤ idx.toNat then idx.toNat + 1 else idx.toNat) →
      ∀ e : Byte, e = s.config.segTab[val.toNat].setWidth 8 ||| (if dot then 0x80 else 0x00) →
      exec (.showdigit idx val dot) s =
        .next (s.after (s.slots.set i (e.setWidth 16))
          [.slotWrite s.config.busAddr (BitVec.ofNat 8 (2 * i.val)) e 0x00]) ∧
      labelOf (.showdigit idx val dot) s = .done) ∧
    (4 ≤ idx.toNat ∨ 16 ≤ val.toNat →
      exec (.showdigit idx val dot) s = .next s ∧ labelOf (.showdigit idx val dot) s = .ignored)

/-- The input-range errors (R191) are exactly SHOWDIGIT with `idx >= 4` or `val >= 16` and SETSEG with `idx >= 4`: each
is a no-op with label `Ignored`, and no other operands of these commands are ignored. -/
def Obligations.InputRangeErrorsAreNoOps : Prop :=
  (∀ (s : State) (idx : Byte) (val : BitVec 16) (dot : Bool),
    (labelOf (.showdigit idx val dot) s = .ignored ↔ 4 ≤ idx.toNat ∨ 16 ≤ val.toNat) ∧
    (labelOf (.showdigit idx val dot) s = .ignored → exec (.showdigit idx val dot) s = .next s)) ∧
  ∀ (s : State) (idx code : Byte) (dot : Bool),
    (labelOf (.setseg idx code dot) s = .ignored ↔ 4 ≤ idx.toNat) ∧
    (labelOf (.setseg idx code dot) s = .ignored → exec (.setseg idx code dot) s = .next s)

/-! ## Chip control commands -/

/-- INIT (R170, with the one flush of the spec's decision D20): the three command bytes, then the clear's five events,
in this order; the slots are zero. -/
def Obligations.InitRunsThePowerOnSequence : Prop :=
  ∀ s : State, s.answered 8 →
    exec .init s =
      .next (s.after #v[0, 0, 0, 0, 0]
        [.cmdWrite s.config.busAddr 0x21, .cmdWrite s.config.busAddr 0x81, .cmdWrite s.config.busAddr 0xEE,
         .slotWrite s.config.busAddr 0 0x00 0x00, .slotWrite s.config.busAddr 2 0x00 0x00,
         .slotWrite s.config.busAddr 4 0x00 0x00, .slotWrite s.config.busAddr 6 0x00 0x00,
         .slotWrite s.config.busAddr 8 0x00 0x00]) ∧
    labelOf .init s = .done

/-- SETBLINK (R171): its word; one event with byte 0x81, 0x83, 0x85 or 0x87; no slot written. -/
def Obligations.SetBlinkSendsTheBlinkByte : Prop :=
  ∀ (s : State) (rate : BitVec 2),
    encode (.setblink rate) = 0x0300000000000000#64 ||| BitVec.ofNat 64 rate.toNat ∧
    (s.answered 1 →
      exec (.setblink rate) s =
        .next (s.after s.slots [.cmdWrite s.config.busAddr (BitVec.ofNat 8 (0x81 + 2 * rate.toNat))]) ∧
      labelOf (.setblink rate) s = .done)

/-- SETBRIGHT (R172): its word; one event with a byte from 0xE0 to 0xEF; no slot written. -/
def Obligations.SetBrightSendsTheBrightnessByte : Prop :=
  ∀ (s : State) (level : BitVec 4),
    encode (.setbright level) = 0x0400000000000000#64 ||| BitVec.ofNat 64 level.toNat ∧
    (s.answered 1 →
      exec (.setbright level) s =
        .next (s.after s.slots [.cmdWrite s.config.busAddr (BitVec.ofNat 8 (0xE0 + level.toNat))]) ∧
      labelOf (.setbright level) s = .done)

/-! ## Renderer commands -/

/-- SHOWERR (R150): its word; all five slots 0x0040 and sent; the same state and events as a SHOWNUM that overflows. -/
def Obligations.ShowErrShowsTheErrorPattern : Prop :=
  encode .showerr = 0x0800000000000000 ∧
  (∀ s : State, s.answered 5 →
    exec .showerr s =
      .next (s.after #v[0x0040, 0x0040, 0x0040, 0x0040, 0x0040]
        [.slotWrite s.config.busAddr 0 0x40 0x00, .slotWrite s.config.busAddr 2 0x40 0x00,
         .slotWrite s.config.busAddr 4 0x40 0x00, .slotWrite s.config.busAddr 6 0x40 0x00,
         .slotWrite s.config.busAddr 8 0x40 0x00]) ∧
    labelOf .showerr s = .done) ∧
  ∀ (s : State) (V : ValueField) (base : Base) (frac : BitVec 3),
    labelOf (.shownum V base frac) s = .overflow → exec (.shownum V base frac) s = exec .showerr s

/-- SHOWNUM with `frac` 5, 6 or 7 is ignored, even where the value would overflow (R73, the spec's decision D12;
R197). -/
def Obligations.ReservedFracIsIgnored : Prop :=
  ∀ (s : State) (V : ValueField) (base : Base) (frac : BitVec 3), 4 < frac.toNat →
    exec (.shownum V base frac) s = .next s ∧ labelOf (.shownum V base frac) s = .ignored

/-- Render overflow (R192): exactly SHOWNUM with `frac <= 4` and `|v| + 1/2 >= base^avail`, whose effect is the error
pattern in all five slots, flushed. -/
def Obligations.OverflowShowsTheErrorPattern : Prop :=
  ∀ (s : State) (V : ValueField) (base : Base) (frac : BitVec 3),
    (labelOf (.shownum V base frac) s = .overflow ↔
      frac.toNat ≤ 4 ∧ (base.radix : ℚ) ^ (if valueOf V < 0 then 3 else 4) ≤ |valueOf V| + 1 / 2) ∧
    (labelOf (.shownum V base frac) s = .overflow → s.answered 5 →
      exec (.shownum V base frac) s =
        .next (s.after #v[0x0040, 0x0040, 0x0040, 0x0040, 0x0040]
          (flushEvents s.config.busAddr #v[0x0040, 0x0040, 0x0040, 0x0040, 0x0040])))

/-- SHOWNUM of a value that fits (R136, R137, R147): for every `frac <= 4` with `|v| + 1/2 < base^avail`, the command
ends `Done`, leaves the closed form of R147 in the digit slots and the colon slot as it was, and flushes.  Where `Fits`
(`rendersWithinSlots`) fails, what it says rests on the spec's decision D17, a digit or sign left of slot 0 is discarded
(R19, R141; log 11). -/
def Obligations.RenderLeavesTheClosedForm : Prop :=
  ∀ (s : State) (V : ValueField) (base : Base) (frac : BitVec 3),
    frac.toNat ≤ 4 → fitsAt (valueOf V) base.radix 0 → s.answered 5 →
    exec (.shownum V base frac) s =
      .next (s.after (renderedSlots s.config (valueOf V) base.radix frac.toNat s.slots)
        (flushEvents s.config.busAddr (renderedSlots s.config (valueOf V) base.radix frac.toNat s.slots))) ∧
    labelOf (.shownum V base frac) s = .done

/-- Where every digit and the sign has a slot (`Fits`, R141), a render can be read back: the four digit slots are, from
the right, the digits of the printed integer with the point left of the last `F` of them, then the minus sign of a
negative value, then blanks, and the digits are worth the printed integer.  Nothing here rests on the discarding of
decision D17. -/
def Obligations.FittingRenderSpellsThePrintedInteger : Prop :=
  ∀ (s : State) (V : ValueField) (base : Base) (frac : BitVec 3),
    frac.toNat ≤ 4 → fitsAt (valueOf V) base.radix 0 → s.answered 5 →
    rendersWithinSlots (valueOf V) base.radix frac.toNat →
    ∃ (t : State) (ds : List (Fin 16)),
      exec (.shownum V base frac) s = .next t ∧
      (∀ d ∈ ds, d.val < base.radix) ∧
      finalF (valueOf V) base.radix frac.toNat < ds.length ∧
      Nat.ofDigits base.radix (ds.map (·.val)) =
        finalN (valueOf V) base.radix (finalF (valueOf V) base.radix frac.toNat) ∧
      [t.slots[4], t.slots[3], t.slots[1], t.slots[0]] =
        (ds.mapIdx fun j d => zext16 (segEnc s.config d
            (finalF (valueOf V) base.radix frac.toNat ≠ 0 ∧ j = finalF (valueOf V) base.radix frac.toNat))) ++
        (if valueOf V < 0 then [0x0040] else []) ++
        List.replicate (4 - ds.length - (if valueOf V < 0 then 1 else 0)) 0x0000

/-- The shedding loop (R134): it never raises `F`, `sv` does not increase when `F` decreases, and the loop ends with the
largest `F <= frac` at which the value fits, if there is one, and else with 0. -/
def Obligations.SheddingEndsAtTheLargestCountThatFits : Prop :=
  ∀ (V : ValueField) (base : Base) (frac F : Nat),
    F = shed (magnitude V) base.radix (limitOf base.radix (isNeg V)) frac →
    F ≤ frac ∧
    (∀ G H : Nat, G ≤ H →
      |valueOf V| * (base.radix : ℚ) ^ G + 1 / 2 ≤ |valueOf V| * (base.radix : ℚ) ^ H + 1 / 2) ∧
    (∀ G ≤ frac, fitsAt (valueOf V) base.radix G → fitsAt (valueOf V) base.radix F ∧ G ≤ F) ∧
    ((∀ G ≤ frac, ¬ fitsAt (valueOf V) base.radix G) → F = 0)

/-- Rounding half up on the magnitude (R137): the printed integer is `floor(a*base^F + 1/2)`. -/
def Obligations.PrintedIntegerRoundsHalfUp : Prop :=
  ∀ (V : ValueField) (b F : Nat),
    (printedInt (magnitude V) b F : ℤ) = ⌊|valueOf V| * (b : ℚ) ^ F + 1 / 2⌋

/-- The decimal point (R139): after a render, bit 7 of a digit slot is set exactly on digit `F` from the right, and on
none when the final `F` is 0.  For a final `F` of 4 the digit that carries the point has no slot, and that no slot shows
one is the spec's decision D17 and not R139 (R141; log 11). -/
def Obligations.DecimalPointStandsOnTheBoundaryDigit : Prop :=
  ∀ (s t : State) (V : ValueField) (base : Base) (frac : BitVec 3),
    s.busy = false → labelOf (.shownum V base frac) s = .done → exec (.shownum V base frac) s = .next t →
    ∀ j : Fin 4, t.slots[digitPos j].getLsbD 7 = true ↔
      finalF (valueOf V) base.radix frac.toNat ≠ 0 ∧ j.val = finalF (valueOf V) base.radix frac.toNat

/-- The colon slot (R145): a SHOWNUM that returns `Done` leaves it as it was; one that overflows leaves 0x0040. -/
def Obligations.RenderKeepsTheColonSlot : Prop :=
  ∀ (s t : State) (V : ValueField) (base : Base) (frac : BitVec 3), exec (.shownum V base frac) s = .next t →
    (labelOf (.shownum V base frac) s = .done → t.slots[2] = s.slots[2]) ∧
    (labelOf (.shownum V base frac) s = .overflow → s.busy = false → t.slots[2] = 0x0040)

/-- A render leaves no trace of the digit slots' earlier content (R143): from two idle blocks with the same parameters,
whatever their slots, the digit slots end equal. -/
def Obligations.RenderErasesEarlierDigits : Prop :=
  ∀ (s s' t t' : State) (V : ValueField) (base : Base) (frac : BitVec 3),
    s.busy = false → s'.busy = false → s.config = s'.config → labelOf (.shownum V base frac) s = .done →
    exec (.shownum V base frac) s = .next t → exec (.shownum V base frac) s' = .next t' →
    ∀ j : Fin 4, t.slots[digitPos j] = t'.slots[digitPos j]

/-- The labels of the commands (R193, the spec's decision D28). -/
def Obligations.LabelsFollowTheOperands : Prop :=
  ∀ (i : Instr) (s : State),
    (labelOf i s = .ignored ↔ i.wellFormed = false) ∧
    (labelOf i s = .overflow ↔ ∃ V base frac, i = .shownum V base frac ∧ frac.toNat ≤ 4 ∧
      ¬ fitsAt (valueOf V) base.radix 0)

/-! ## Primitives -/

/-- `Phys` (R91): 0, 1, 3, 4; injective; never the colon slot. -/
def Obligations.PhysSkipsTheColonSlot : Prop :=
  phys 0 = 0 ∧ phys 1 = 1 ∧ phys 2 = 3 ∧ phys 3 = 4 ∧ ∀ k l : Fin 4, phys k ≠ 2 ∧ (phys k = phys l → k = l)

/-- `Off(i) = 2*i` (R92), and `FlushSlot(i)` (R93) sends the slot's low byte, then its high byte, to that offset and
writes no slot. -/
def Obligations.FlushSlotSendsTheSlotAtTwiceItsIndex : Prop :=
  (∀ i : Fin 5, regOff i = BitVec.ofNat 8 (2 * i.val)) ∧
  ∀ (s : State) (i : Fin 5), s.answered 1 →
    s.flushSlot i = s.after s.slots
      [.slotWrite s.config.busAddr (BitVec.ofNat 8 (2 * i.val)) (s.slots[i].extractLsb' 0 8) (s.slots[i].extractLsb' 8 8)]

/-- `Prev` (R95): 4 to 3, 3 to 1, 1 to 0, 0 to -1, and below 0 it keeps decreasing; so the digit positions from the
right are `Phys(3)`, `Phys(2)`, `Phys(1)`, `Phys(0)`. -/
def Obligations.PrevWalksTheDigitSlotsLeftward : Prop :=
  (∀ p : Int, prevPos p = if p - 1 = 2 then 1 else p - 1) ∧
  prevPos 4 = 3 ∧ prevPos 3 = 1 ∧ prevPos 1 = 0 ∧ prevPos 0 = -1 ∧ (∀ p : Int, p < 0 → prevPos p = p - 1) ∧
  (phys 3).val = 4 ∧ ∀ k l : Fin 4, k.val = l.val + 1 → prevPos (phys k).val = (phys l).val

/-- `SegEnc` (R90): without the dot the table's code, with the dot bit 7 set and bits 6 to 0 those of the table's code,
whatever the table. -/
def Obligations.SegEncAddsOnlyThePoint : Prop :=
  ∀ (c : Config) (d : Fin 16),
    segEnc c d false = c.segTab[d].setWidth 8 ∧
    (segEnc c d true).getLsbD 7 = true ∧ (segEnc c d true).extractLsb' 0 7 = c.segTab[d] ∧
    ∀ dot : Bool, segEnc c d dot = c.segTab[d].setWidth 8 ||| (if dot then 0x80 else 0x00)

/-- The segment code (R60): the mask of every segment; so the dash 0x40 lights segment g alone (R61), and the blank code
lights nothing (R64). -/
def Obligations.SegmentCodeBitsLightTheirSegments : Prop :=
  (∀ code : Byte,
    lights code .a = decide (code &&& 0x01 ≠ 0) ∧ lights code .b = decide (code &&& 0x02 ≠ 0) ∧
    lights code .c = decide (code &&& 0x04 ≠ 0) ∧ lights code .d = decide (code &&& 0x08 ≠ 0) ∧
    lights code .e = decide (code &&& 0x10 ≠ 0) ∧ lights code .f = decide (code &&& 0x20 ≠ 0) ∧
    lights code .g = decide (code &&& 0x40 ≠ 0) ∧ lights code .point = decide (code &&& 0x80 ≠ 0)) ∧
  ∀ x : Segment, (lights dash x = true ↔ x = .g) ∧ lights blank x = false

/-! ## Invariants of every step -/

/-- After reset, whatever the parameters, the block is idle (R221); each of the chip's registers holds a byte, and it may
be any byte (R32, R223, U11; log 4): `d` for the display registers, `k` for the settings; and every invariant below
holds. -/
def Obligations.ResetMeetsTheInvariants : Prop :=
  ∀ (c : Config) (d k : Nat → Byte) (s : State), s = State.resetWith c d k →
    s.busy = false ∧ s.config = c ∧
    (∀ a, a < 10 → s.chip.display.read a = some (d a)) ∧
    (∀ a ∈ [0x21, 0x80, 0xE0], s.chip.settings.read a = some (k a)) ∧
    s.highBytesZero ∧ s.logLegal ∧ s.mirrored ∧ s.chipMirrored ∧ s.chipCanonical

/-- Every step keeps bits 15 to 8 of every slot at 0 (R23). -/
def Obligations.SlotHighBytesStayZero : Prop :=
  ∀ s t : State, s.highBytesZero → step s = .next t → t.highBytesZero

/-- Every step keeps the log to the events the block can emit: to `BUS_ADDR`, the command bytes of R53, and slot writes
at the offsets of R42 with a zero second byte (R23). -/
def Obligations.LogHoldsOnlyTheEventsOfTheSpec : Prop :=
  ∀ s t : State, s.highBytesZero → s.logLegal → step s = .next t → t.logLegal

/-- Every step keeps the buffer the mirror of what was last sent: while no write is outstanding, the last slot write in
the log at each offset carries the slot's bytes (R31, R33, R52). -/
def Obligations.LogMirrorsTheBuffer : Prop :=
  ∀ s t : State, s.mirrored → step s = .next t → t.mirrored

/-- A step whose writes are all performed keeps the chip's registers equal to what was last sent to them (R52; with
`LogMirrorsTheBuffer`, the chip's copy equals the buffer). -/
def Obligations.ChipHoldsWhatWasLastSent : Prop :=
  ∀ s t : State, s.performed 8 → s.chipMirrored → step s = .next t → t.chipMirrored

/-- Every step keeps the chip's memories in canonical form (log 4), and leaves the chip the registers it has, each with a
value: display registers at offsets 0 to 9, "No command writes any offset above 9" (R42; that a write's second byte lands at the next offset is PRESUMED, log 5), and three
settings (R27; their keys are log 6). -/
def Obligations.ChipMemoriesStayCanonical : Prop :=
  ∀ s t : State, s.chipCanonical → step s = .next t → t.chipCanonical

/-- No step writes the parameters (R26: the bus address is "not a writable register"; R15). -/
def Obligations.StepKeepsTheParameters : Prop :=
  ∀ s t : State, step s = .next t → t.config = s.config

/-- The BusAdapter's ok or error answers never reach the block (R195): two states that differ only in the answers, none
of which is "never", and in what the chip took, step to two states that again differ only so. -/
def Obligations.AnswersNeverReachTheBlock : Prop :=
  ∀ s s' : State, s.sameBlock s' → (∀ a ∈ s.answers, a ≠ .never) → (∀ a ∈ s'.answers, a ≠ .never) →
    ∃ t t', step s = .next t ∧ step s' = .next t' ∧ t.sameBlock t' ∧
      (∀ a ∈ t.answers, a ≠ .never) ∧ ∀ a ∈ t'.answers, a ≠ .never

/-- A host's list of inputs is worked off, one input a step, whenever no write is left unanswered (R18, R110, R233).
That the inputs are a list, one a step, is log 7; past the end of the answers' list every write is answered, which is
log 3. -/
def Obligations.EveryInputIsWorkedOff : Prop :=
  ∀ s : State, s.busy = false → (∀ a ∈ s.answers, a ≠ .never) →
    ∃ t, Host.Core.run core s.inputs.length s = .next t ∧ t.inputs = [] ∧ t.busy = false

/-! ## The bus log and the chip -/

/-- A command appends to the log (R47), and as many events as its kind emits: 0, 1, 5 or 8. -/
def Obligations.EventCountOfEachCommand : Prop :=
  ∀ (i : Instr) (s : State), s.answered (busWrites i) →
    ∃ (t : State) (es : List BusEvent), exec i s = .next t ∧ t.busLog = s.busLog ++ es ∧ es.length = busWrites i

/-- A write that is never answered is the last thing of its command (R233), whichever of its writes it is.  With the
first `n` writes of a command answered and write number `n` (from 0) never: the log ends with that write, the block is
busy, and the chip has of the first `n` what was performed, and has taken the last or has not.  Beside the same command
with every write answered (`v` to `w`): the log is the beginning of that one's, and the slots are that one's, but for
INIT held up at one of its three command bytes, which come before the clear.  That nothing of the command after the
write happens is the model's reading (log 9). -/
def Obligations.UnansweredWriteStallsTheBlock : Prop :=
  ∀ (i : Instr) (s : State) (n : Nat), s.heldAt n → n < busWrites i →
    ∃ (t : State) (es : List BusEvent) (e : BusEvent),
      exec i s = .next t ∧ es.length = n ∧ t.busLog = s.busLog ++ es ++ [e] ∧ t.busy = true ∧
      (t.chip = s.chip.afterWrites s.nextWrite s.answers es ∨
        t.chip = (s.chip.afterWrites s.nextWrite s.answers es).take e) ∧
      ∀ v w : State, s.sameBlock v → v.answered 8 → exec i v = .next w →
        t.busLog <+: w.busLog ∧ t.slots = if i = .init ∧ n < 3 then s.slots else w.slots

/-- Writes that fail leave the chip's copy alone, while the buffer changes and the events are logged as if they had
succeeded (R31, R52, U17). -/
def Obligations.FailedWritesLeaveTheChipStale : Prop :=
  ∀ (i : Instr) (s s' : State), s.busy = false → s.failed 8 → s'.performed 8 → s.sameBlock s' →
    ∃ t t', exec i s = .next t ∧ exec i s' = .next t' ∧ t.chip = s.chip ∧ t.slots = t'.slots ∧ t.busLog = t'.busLog

/-- After a command that ends in a full flush, every write performed, the chip's registers at offsets `2*i` and `2*i+1`
hold the two bytes of slot `i` (R52; the odd offset is the spec's general knowledge G3, log 5). -/
def Obligations.FullFlushReachesTheChip : Prop :=
  ∀ (i : Instr) (s : State), s.busy = false → s.performed 8 →
    (i = .init ∨ i = .clear ∨ i = .flushall ∨ i = .showerr ∨
      ∃ V base frac, i = .shownum V base frac ∧ frac.toNat ≤ 4) →
    ∃ t, exec i s = .next t ∧
      ∀ k : Fin 5, t.chip.display.read (2 * k.val) = some (loByte t.slots[k]) ∧
        t.chip.display.read (2 * k.val + 1) = some (hiByte t.slots[k])

/-- SETSEG, SHOWDIGIT and SHOWCOLON write the two chip registers of their own slot and no other: with `i` the slot,
every other display register and every setting reads as before, whatever the answers; and once performed, the two read
as the slot's bytes (R52).  That the second byte lands at the odd offset `2*i + 1`, and at no other, is the spec's
general knowledge G3 (R42; PRESUMED, log 5). -/
def Obligations.OneSlotCommandsReachOnlyTheirRegisters : Prop :=
  ∀ (s t : State) (c : Instr) (i : Fin 5),
    ((∃ idx code dot, c = .setseg idx code dot ∧ idx.toNat < 4 ∧
        i.val = (if 2 ≤ idx.toNat then idx.toNat + 1 else idx.toNat)) ∨
      (∃ idx val dot, c = .showdigit idx val dot ∧ idx.toNat < 4 ∧ val.toNat < 16 ∧
        i.val = (if 2 ≤ idx.toNat then idx.toNat + 1 else idx.toNat)) ∨
      ∃ on, c = .showcolon on ∧ i = 2) →
    exec c s = .next t →
    (∀ a, a ≠ 2 * i.val → a ≠ 2 * i.val + 1 → t.chip.display.read a = s.chip.display.read a) ∧
    t.chip.settings = s.chip.settings ∧
    (s.busy = false → s.performed 1 →
      t.chip.display.read (2 * i.val) = some (loByte t.slots[i]) ∧
      t.chip.display.read (2 * i.val + 1) = some (hiByte t.slots[i]))

/-- The frame of the full-flush commands in the chip: no display register above offset 9 and, but for INIT, no setting
changes; an ignored SHOWNUM stores nothing at all.  That the second byte of the write at offset 8 lands at 9 is the
spec's general knowledge G3 (R42; PRESUMED, log 5). -/
def Obligations.FullFlushWritesOffsetsZeroToNineOnly : Prop :=
  ∀ (s t : State) (i : Instr),
    (i = .init ∨ i = .clear ∨ i = .flushall ∨ i = .showerr ∨ ∃ V base frac, i = .shownum V base frac) →
    exec i s = .next t →
    (∀ a, 10 ≤ a → t.chip.display.read a = s.chip.display.read a) ∧
    (i ≠ .init → t.chip.settings = s.chip.settings) ∧
    (i.wellFormed = false → t.chip = s.chip)

/-- The chip's settings (R27 to R30, each under its key): SETBLINK sets the display byte and SETBRIGHT the brightness
byte, each alone; after INIT the oscillator is enabled, the display byte is 0x81 and the brightness byte 0xEE, if the
writes were performed; no command writes any other key.  The keys are log 6; that a performed SETBLINK or SETBRIGHT is
taken also by a chip whose oscillator is not enabled is the model's choice (log 18), which R225 leaves open. -/
def Obligations.SettingsFollowTheCommandBytes : Prop :=
  (∀ (s t : State) (rate : BitVec 2), exec (.setblink rate) s = .next t →
    t.chip.display = s.chip.display ∧
    (∀ a, a ≠ 0x80 → t.chip.settings.read a = s.chip.settings.read a) ∧
    (s.busy = false → s.performed 1 →
      t.chip.settings.read 0x80 = some (BitVec.ofNat 8 (0x81 + 2 * rate.toNat)))) ∧
  (∀ (s t : State) (level : BitVec 4), exec (.setbright level) s = .next t →
    t.chip.display = s.chip.display ∧
    (∀ a, a ≠ 0xE0 → t.chip.settings.read a = s.chip.settings.read a) ∧
    (s.busy = false → s.performed 1 →
      t.chip.settings.read 0xE0 = some (BitVec.ofNat 8 (0xE0 + level.toNat)))) ∧
  ∀ (s t : State), exec .init s = .next t →
    (∀ a, a ≠ 0x21 → a ≠ 0x80 → a ≠ 0xE0 → t.chip.settings.read a = s.chip.settings.read a) ∧
    (s.busy = false → s.performed 3 →
      t.chip.settings.read 0x21 = some 0x21 ∧ t.chip.settings.read 0x80 = some 0x81 ∧
      t.chip.settings.read 0xE0 = some 0xEE)

/-- Once the chip's oscillator setting is the enable byte it stays so, over every step.  It rests on the model's reading
that the setting has a key of its own, which only the byte 0x21 sets (log 6), and that the reset input does not reach
the chip (log 8); the spec says only that "No command of the block disables it" (R28), and that the block sends no
other such byte is `LogHoldsOnlyTheEventsOfTheSpec`. -/
def Obligations.OscillatorStaysEnabled : Prop :=
  ∀ s t : State, s.chip.settings.read 0x21 = some 0x21 → step s = .next t → t.chip.settings.read 0x21 = some 0x21

/-- The frame of the slots, in every state and whatever the BusAdapter answers (R33): FLUSHALL, SETBLINK and SETBRIGHT
change no slot; SHOWCOLON at most the colon slot; SETSEG and SHOWDIGIT at most the slot of their index, and never the
colon slot; and every command keeps the parameters and the host's list, and only appends to the log. -/
def Obligations.CommandsChangeOnlyTheirSlots : Prop :=
  ∀ (s t : State) (i : Instr), exec i s = .next t →
    (i = .flushall ∨ (∃ rate, i = .setblink rate) ∨ (∃ level, i = .setbright level) → t.slots = s.slots) ∧
    ((∃ on, i = .showcolon on) → ∀ k : Fin 5, k ≠ 2 → t.slots[k] = s.slots[k]) ∧
    (∀ idx : Byte, ((∃ code dot, i = .setseg idx code dot) ∨ ∃ val dot, i = .showdigit idx val dot) →
      ∀ k : Fin 5, k.val ≠ (if 2 ≤ idx.toNat then idx.toNat + 1 else idx.toNat) → t.slots[k] = s.slots[k]) ∧
    t.config = s.config ∧ t.inputs = s.inputs ∧ s.busLog <+: t.busLog

/-- "A slot write is idempotent with respect to the chip's copy" (R46). -/
def Obligations.SlotWriteTwiceIsSlotWriteOnce : Prop :=
  ∀ (c : Chip) (a : BusAddr) (off lo hi : Byte), c.display.wf →
    (c.take (.slotWrite a off lo hi)).take (.slotWrite a off lo hi) = c.take (.slotWrite a off lo hi)

/-- The canonical form (log 4): two canonical memories that read alike at every address are equal, so equal chips are
equal data. -/
def Obligations.CanonicalMemoriesThatReadAlikeAreEqual : Prop :=
  ∀ m m' : Memory, m.wf → m'.wf → (∀ a, m.read a = m'.read a) → m = m'
end

