-- ==== Sys2Proof/Laws/Memory.lean ====
section
/-! SUPPORT. The laws of the chip's memories: a write is read back, leaves every other address alone, and keeps the
canonical form; and the registers the chip has at power-on. -/

namespace Sys2Proof.Machine

@[simp] theorem Memory.read_nil (a : Nat) : Memory.read [] a = none := rfl

theorem Memory.read_cons (k : Nat) (b : Byte) (m : Memory) (a : Nat) :
    Memory.read ((k, b) :: m) a = if k = a then some b else Memory.read m a := rfl

@[simp] theorem Memory.read_write_self (m : Memory) (a : Nat) (v : Byte) : (m.write a v).read a = some v := by
  induction m with
  | nil => simp [Memory.write, Memory.read]
  | cons cell m ih =>
    obtain ⟨k, b⟩ := cell
    rcases Nat.lt_trichotomy a k with h | h | h
    · simp [Memory.write, Memory.read, h]
    · simp [Memory.write, Memory.read, h]
    · simpa [Memory.write, Memory.read, h.ne', h.ne, h.not_gt] using ih

theorem Memory.read_write_other (m : Memory) {a b : Nat} (v : Byte) (hb : b ≠ a) :
    (m.write a v).read b = m.read b := by
  induction m with
  | nil => simp [Memory.write, Memory.read, hb.symm]
  | cons cell m ih =>
    obtain ⟨k, c⟩ := cell
    rcases Nat.lt_trichotomy a k with h | h | h
    · simp [Memory.write, Memory.read, h, hb.symm]
    · subst h
      simp [Memory.write, Memory.read, hb.symm]
    · simp only [Memory.write, h.not_gt, h.ne', if_false, Memory.read_cons, ih]

theorem Memory.read_write (m : Memory) (a b : Nat) (v : Byte) :
    (m.write a v).read b = if b = a then some v else m.read b := by
  split
  · next h => rw [h, Memory.read_write_self]
  · next h => exact Memory.read_write_other m v h

/-- The cells of a memory after a write are the old ones and the new one. -/
theorem Memory.mem_write {m : Memory} {a : Nat} {v : Byte} {x : Host.Cell} (hx : x ∈ m.write a v) :
    x ∈ m ∨ x = (a, v) := by
  induction m with
  | nil => simpa [Memory.write] using hx
  | cons cell m ih =>
    obtain ⟨k, b⟩ := cell
    simp only [Memory.write] at hx
    split at hx
    · simpa [or_comm, or_left_comm] using hx
    · split at hx
      · simp only [List.mem_cons] at hx ⊢
        tauto
      · simp only [List.mem_cons] at hx ⊢
        rcases hx with hx | hx
        · exact .inl (.inl hx)
        · rcases ih hx with h | h
          · exact .inl (.inr h)
          · exact .inr h

/-- An address reads as a byte exactly when it has a cell. -/
theorem Memory.read_isSome (m : Memory) (a : Nat) : (m.read a).isSome = true ↔ a ∈ m.map (·.1) := by
  induction m with
  | nil => simp
  | cons cell m ih =>
    obtain ⟨k, b⟩ := cell
    rw [Memory.read_cons, List.map_cons, List.mem_cons]
    split
    · next h => simp [h]
    · next h => rw [ih]; exact ⟨.inr, fun hm => hm.resolve_left (Ne.symm h)⟩

@[simp] theorem Memory.wf_nil : Memory.wf [] := List.Pairwise.nil

/-- Every write keeps the canonical form. -/
theorem Memory.wf_write {m : Memory} (a : Nat) (v : Byte) (hm : m.wf) : (m.write a v).wf := by
  induction m with
  | nil => exact List.pairwise_singleton _ _
  | cons cell m ih =>
    obtain ⟨k, b⟩ := cell
    obtain ⟨hk, hm'⟩ := List.pairwise_cons.mp hm
    simp only [Memory.write]
    split
    · next h =>
      refine List.pairwise_cons.mpr ⟨fun x hx => ?_, hm⟩
      rcases List.mem_cons.mp hx with rfl | hx
      · exact h
      · exact h.trans (hk x hx)
    · split
      · next h => exact List.pairwise_cons.mpr ⟨fun x hx => h ▸ hk x hx, hm'⟩
      · next h h' =>
        refine List.pairwise_cons.mpr ⟨fun x hx => ?_, ih hm'⟩
        rcases Memory.mem_write hx with hx | rfl
        · exact hk x hx
        · show k < a
          omega

/-- A write to a register that is there adds no register. -/
theorem Memory.keys_write {m : Memory} {a : Nat} (v : Byte) (hm : m.wf) (ha : a ∈ m.map (·.1)) :
    (m.write a v).map (·.1) = m.map (·.1) := by
  induction m with
  | nil => simp at ha
  | cons cell m ih =>
    obtain ⟨k, b⟩ := cell
    obtain ⟨hk, hm'⟩ := List.pairwise_cons.mp hm
    rcases List.mem_cons.mp ha with rfl | ha'
    · simp [Memory.write]
    · obtain ⟨x, hx, rfl⟩ := List.mem_map.mp ha'
      have hlt := hk x hx
      simp [Memory.write, hlt.not_gt, hlt.ne', ih hm' ha']

/-! ## The chip at power-on -/

theorem Chip.poweredOn_display_wf (d k : Nat → Byte) : (Chip.poweredOn d k).display.wf := by
  simp [Chip.poweredOn, displayOffsets, Memory.wf]

theorem Chip.poweredOn_settings_wf (d k : Nat → Byte) : (Chip.poweredOn d k).settings.wf := by
  simp [Chip.poweredOn, settingKeys, Memory.wf]

@[simp] theorem Chip.poweredOn_display_keys (d k : Nat → Byte) :
    (Chip.poweredOn d k).display.map (·.1) = displayOffsets := rfl

@[simp] theorem Chip.poweredOn_settings_keys (d k : Nat → Byte) :
    (Chip.poweredOn d k).settings.map (·.1) = settingKeys := rfl

/-- What a register came up with is what it reads as. -/
theorem Memory.read_map_cells (f : Nat → Byte) {as : List Nat} {a : Nat} (ha : a ∈ as) :
    Memory.read (as.map fun x => (x, f x)) a = some (f a) := by
  induction as with
  | nil => simp at ha
  | cons k as ih =>
    rw [List.map_cons, Memory.read_cons]
    split
    · next h => rw [h]
    · next h => exact ih ((List.mem_cons.mp ha).resolve_left (Ne.symm h))

end Sys2Proof.Machine
end

