-- ==== Sys2Proof/Laws/Operands.lean ====
section
/-! SUPPORT. The small laws of the pure functions. -/

namespace Sys2Proof.Machine

@[simp] theorem loByte_zext16 (b : Byte) : loByte (zext16 b) = b := by
  apply BitVec.eq_of_getLsbD_eq
  intro i hi
  simp [loByte, zext16, hi, show i < 16 by omega]

@[simp] theorem hiByte_zext16 (b : Byte) : hiByte (zext16 b) = 0 := by
  apply BitVec.eq_of_getLsbD_eq
  intro i hi
  simp [hiByte, zext16]

@[simp] theorem hiByte_zero : hiByte 0#16 = 0#8 := by decide

/-- The high byte of every word the error pattern and the clear write is 0. -/
theorem hiByte_replicate (b : Byte) (i : Fin 5) : hiByte (Vector.replicate 5 (zext16 b))[i] = 0 := by simp

theorem dotBit_eq (dot : Bool) : dotBit dot = if dot then 0x80 else 0x00 := by cases dot <;> decide

/-- `SEGTAB[d] & 0x80 = 0` (R62). -/
@[simp] theorem segCode_point (c : Config) (d : Fin 16) : (segCode c d).getLsbD 7 = false := by
  simp [segCode]

theorem phys_val (k : Fin 4) : (phys k).val = if 2 ≤ k.val then k.val + 1 else k.val := rfl

theorem phys_ne_colon (k : Fin 4) : phys k ≠ 2 := by revert k; decide

theorem radix_pos (b : Base) : 2 ≤ b.radix := by cases b <;> decide

theorem radix_le (b : Base) : b.radix ≤ 16 := by cases b <;> decide

/-- A digit of a number in an admitted base is below 16, so the table has its code (R138). -/
theorem digitOf_mod (b : Base) (n : Nat) : (digitOf (n % b.radix)).val = n % b.radix := by
  have h := Nat.mod_lt n (show b.radix > 0 by have := radix_pos b; omega)
  have := radix_le b
  simp only [digitOf, Fin.ofNat_eq_cast, Fin.val_natCast]
  omega

/-- `sint_40` is the two's complement reading of the field (R8). -/
theorem sint40_eq_toInt (V : ValueField) : sint40 V = V.toInt := by
  have := V.isLt
  rw [sint40, BitVec.toInt_eq_toNat_cond]
  split <;> split <;> omega

theorem sint40_bounds (V : ValueField) : -2 ^ 39 ≤ sint40 V ∧ sint40 V < 2 ^ 39 := by
  have := V.isLt
  rw [sint40]
  split <;> omega

/-! ## The integers of the render stand for the rationals of the spec -/

theorem valueOf_neg_iff (V : ValueField) : valueOf V < 0 ↔ isNeg V = true := by
  simp only [valueOf, isNeg, decide_eq_true_eq]
  constructor
  · intro h
    by_contra hn
    have : (0 : ℚ) ≤ (sint40 V : ℚ) := by exact_mod_cast not_lt.mp hn
    have : (0 : ℚ) ≤ (sint40 V : ℚ) / 65536 := by positivity
    linarith
  · intro h
    have : (sint40 V : ℚ) < 0 := by exact_mod_cast h
    linarith

/-- `a = |v|` is `A / 65536`. -/
theorem abs_valueOf (V : ValueField) : |valueOf V| = (magnitude V : ℚ) / 65536 := by
  rw [valueOf, abs_div, magnitude, Nat.cast_natAbs, Int.cast_abs]
  norm_num

/-- `sv` is `scaled / 65536`. -/
theorem scaled_eq (V : ValueField) (b F : Nat) :
    |valueOf V| * (b : ℚ) ^ F + 1 / 2 = (scaled (magnitude V) b F : ℚ) / 65536 := by
  rw [abs_valueOf, scaled]
  push_cast
  ring

/-- The integer comparison of the shedding loop is the comparison `sv < limit` of the rationals. -/
theorem fitsAt_iff (V : ValueField) (b F : Nat) :
    fitsAt (valueOf V) b F ↔ fitsLimit (magnitude V) b F (limitOf b (isNeg V)) = true := by
  have hl : ((b : ℚ) ^ (if valueOf V < 0 then 3 else 4)) = (limitOf b (isNeg V) : ℚ) := by
    simp only [valueOf_neg_iff, limitOf, availDigits]
    split <;> push_cast <;> rfl
  rw [fitsAt, scaled_eq, hl, fitsLimit, decide_eq_true_eq, div_lt_iff₀ (by norm_num)]
  exact_mod_cast Iff.rfl

end Sys2Proof.Machine
end

