-- ==== Sys2Proof/Laws/State.lean ====
section
/-! SUPPORT. What each update of the state does to each field. -/

namespace Sys2Proof.Machine

/-! ## A whole effect, `State.after` -/

section After
variable (s : State) (sl : Slots) (es : List BusEvent)

@[simp] theorem State.after_slots : (s.after sl es).slots = sl := rfl
@[simp] theorem State.after_busLog : (s.after sl es).busLog = s.busLog ++ es := rfl
@[simp] theorem State.after_busy : (s.after sl es).busy = s.busy := rfl
@[simp] theorem State.after_config : (s.after sl es).config = s.config := rfl
@[simp] theorem State.after_inputs : (s.after sl es).inputs = s.inputs := rfl
@[simp] theorem State.after_answers : (s.after sl es).answers = s.answers.drop es.length := rfl
@[simp] theorem State.after_nextWrite : (s.after sl es).nextWrite = s.nextWrite + es.length := rfl
@[simp] theorem State.after_chip : (s.after sl es).chip = s.chip.afterWrites s.nextWrite s.answers es := rfl
end After

/-- No write and no change of the slots is no effect. -/
@[simp] theorem State.after_nil (s : State) : s.after s.slots [] = s := by simp [State.after, Chip.afterWrites]

/-! ## Reset -/

section Reset
variable (s : State)

@[simp] theorem State.assertReset_slots : s.assertReset.slots = Vector.replicate 5 0 := rfl
@[simp] theorem State.assertReset_busLog : s.assertReset.busLog = [] := rfl
@[simp] theorem State.assertReset_busy : s.assertReset.busy = false := rfl
@[simp] theorem State.assertReset_config : s.assertReset.config = s.config := rfl
@[simp] theorem State.assertReset_inputs : s.assertReset.inputs = s.inputs := rfl
@[simp] theorem State.assertReset_answers : s.assertReset.answers = s.answers := rfl
@[simp] theorem State.assertReset_nextWrite : s.assertReset.nextWrite = s.nextWrite := rfl
@[simp] theorem State.assertReset_chip : s.assertReset.chip = s.chip := rfl

variable (c : Config) (d k : Nat → Byte)

@[simp] theorem State.resetWith_slots : (State.resetWith c d k).slots = Vector.replicate 5 0 := rfl
@[simp] theorem State.resetWith_busLog : (State.resetWith c d k).busLog = [] := rfl
@[simp] theorem State.resetWith_busy : (State.resetWith c d k).busy = false := rfl
@[simp] theorem State.resetWith_config : (State.resetWith c d k).config = c := rfl
@[simp] theorem State.resetWith_inputs : (State.resetWith c d k).inputs = [] := rfl
@[simp] theorem State.resetWith_answers : (State.resetWith c d k).answers = [] := rfl
@[simp] theorem State.resetWith_nextWrite : (State.resetWith c d k).nextWrite = 0 := rfl
@[simp] theorem State.resetWith_chip : (State.resetWith c d k).chip = .poweredOn d k := rfl

/-- The memories of the chip have the canonical form after reset. -/
theorem State.reset_chip_wf : State.reset.chip.display.wf ∧ State.reset.chip.settings.wf :=
  ⟨Chip.poweredOn_display_wf _ _, Chip.poweredOn_settings_wf _ _⟩

end Reset

/-! ## Presenting a word -/

section Fetch
variable (s : State) (nbits w : Nat)

@[simp] theorem State.withFetchWord_slots : (s.withFetchWord nbits w).slots = s.slots := rfl
@[simp] theorem State.withFetchWord_busLog : (s.withFetchWord nbits w).busLog = s.busLog := rfl
@[simp] theorem State.withFetchWord_busy : (s.withFetchWord nbits w).busy = false := rfl
@[simp] theorem State.withFetchWord_config : (s.withFetchWord nbits w).config = s.config := rfl
@[simp] theorem State.withFetchWord_inputs :
    (s.withFetchWord nbits w).inputs = .command (tableWord nbits w) :: s.inputs := rfl
@[simp] theorem State.withFetchWord_answers : (s.withFetchWord nbits w).answers = s.answers := rfl
@[simp] theorem State.withFetchWord_nextWrite : (s.withFetchWord nbits w).nextWrite = s.nextWrite := rfl
@[simp] theorem State.withFetchWord_chip : (s.withFetchWord nbits w).chip = s.chip := rfl
end Fetch

/-! ## A change of the slots -/

section SetSlots
variable (f : Slots → Slots) (s : State)

theorem State.setSlots_slots : (s.setSlots f).slots = if s.busy then s.slots else f s.slots := by
  unfold State.setSlots; split <;> rfl
@[simp] theorem State.setSlots_busLog : (s.setSlots f).busLog = s.busLog := by unfold State.setSlots; split <;> rfl
@[simp] theorem State.setSlots_busy : (s.setSlots f).busy = s.busy := by unfold State.setSlots; split <;> rfl
@[simp] theorem State.setSlots_config : (s.setSlots f).config = s.config := by unfold State.setSlots; split <;> rfl
@[simp] theorem State.setSlots_inputs : (s.setSlots f).inputs = s.inputs := by unfold State.setSlots; split <;> rfl
@[simp] theorem State.setSlots_answers : (s.setSlots f).answers = s.answers := by unfold State.setSlots; split <;> rfl
@[simp] theorem State.setSlots_nextWrite : (s.setSlots f).nextWrite = s.nextWrite := by
  unfold State.setSlots; split <;> rfl
@[simp] theorem State.setSlots_chip : (s.setSlots f).chip = s.chip := by unfold State.setSlots; split <;> rfl
end SetSlots

/-! ## One bus write -/

section BusWrite
variable (e : BusEvent) (s : State)

@[simp] theorem State.busWrite_slots : (s.busWrite e).slots = s.slots := by unfold State.busWrite; split <;> rfl
theorem State.busWrite_busLog : (s.busWrite e).busLog = if s.busy then s.busLog else s.busLog ++ [e] := by
  unfold State.busWrite; split <;> rfl
theorem State.busWrite_busy : (s.busWrite e).busy = (s.busy || s.answers.head? == some .never) := by
  unfold State.busWrite; split <;> simp_all
@[simp] theorem State.busWrite_config : (s.busWrite e).config = s.config := by unfold State.busWrite; split <;> rfl
@[simp] theorem State.busWrite_inputs : (s.busWrite e).inputs = s.inputs := by unfold State.busWrite; split <;> rfl
theorem State.busWrite_answers : (s.busWrite e).answers = if s.busy then s.answers else s.answers.tail := by
  unfold State.busWrite; split <;> rfl
theorem State.busWrite_nextWrite : (s.busWrite e).nextWrite = if s.busy then s.nextWrite else s.nextWrite + 1 := by
  unfold State.busWrite; split <;> rfl
theorem State.busWrite_chip :
    (s.busWrite e).chip = if s.busy = false ∧ s.nextPerformed = true then s.chip.take e else s.chip := by
  unfold State.busWrite; split <;> simp_all
end BusWrite

end Sys2Proof.Machine
end

