-- ==== Sys2Proof/Laws/Ops.lean ====
section
/-! SUPPORT. What each shared operation can do, said once: on a busy block nothing; on an idle block with its writes
answered, a `State.after`. -/

namespace Sys2Proof.Machine

/-! ## A busy block -/

theorem State.setSlots_of_busy {s : State} (f : Slots → Slots) (h : s.busy = true) : s.setSlots f = s := by
  simp [State.setSlots, h]

theorem State.busWrite_of_busy {s : State} (e : BusEvent) (h : s.busy = true) : s.busWrite e = s := by
  simp [State.busWrite, h]

theorem State.cmdByte_of_busy {s : State} (c : Byte) (h : s.busy = true) : s.cmdByte c = s :=
  State.busWrite_of_busy _ h

theorem State.flushSlot_of_busy {s : State} (i : Fin 5) (h : s.busy = true) : s.flushSlot i = s :=
  State.busWrite_of_busy _ h

theorem State.flushAll_of_busy {s : State} (h : s.busy = true) : s.flushAll = s := by
  simp [State.flushAll, physIndices, State.flushSlot_of_busy, h]

theorem State.writeDigit_of_busy {s : State} (k : Fin 4) (code : Byte) (dot : Bool) (h : s.busy = true) :
    s.writeDigit k code dot = s := by
  rw [State.writeDigit, State.setSlot, State.setSlots_of_busy _ h, State.flushSlot_of_busy _ h]

theorem State.errorPattern_of_busy {s : State} (h : s.busy = true) : s.errorPattern = s := by
  rw [State.errorPattern, State.fillSlots, State.setSlots_of_busy _ h, State.flushAll_of_busy h]

/-! ## Whole effects in sequence -/

theorem Chip.afterWrites_append (es es' : List BusEvent) (n : Nat) (as : List Answer) (c : Chip) :
    Chip.afterWrites n as (es ++ es') c =
      Chip.afterWrites (n + es.length) (as.drop es.length) es' (Chip.afterWrites n as es c) := by
  induction es generalizing n as c with
  | nil => simp [Chip.afterWrites]
  | cons e es ih =>
    simp only [List.cons_append, Chip.afterWrites, ih, List.length_cons, List.drop_tail, Nat.add_assoc]
    rw [Nat.add_comm 1 es.length]

theorem State.after_after (s : State) (sl sl' : Slots) (es es' : List BusEvent) :
    (s.after sl es).after sl' es' = s.after sl' (es ++ es') := by
  simp [State.after, Chip.afterWrites_append, Nat.add_assoc]

theorem State.answered_mono {s : State} {m n : Nat} (hmn : m ≤ n) (h : s.answered n) : s.answered m :=
  ⟨h.1, fun a ha => h.2 a (List.Sublist.mem ha (List.take_sublist_take_left hmn))⟩

theorem State.answered_after {s : State} {n : Nat} (sl : Slots) (es : List BusEvent) (h : s.answered (es.length + n)) :
    (s.after sl es).answered n := by
  refine ⟨h.1, fun a ha => h.2 a ?_⟩
  rw [State.after_answers, List.take_drop] at ha
  exact List.mem_of_mem_drop ha

/-! ## An idle block whose writes are answered -/

theorem State.setSlots_of_idle {s : State} (f : Slots → Slots) (h : s.busy = false) :
    s.setSlots f = s.after (f s.slots) [] := by
  simp [State.setSlots, State.after, Chip.afterWrites, h]

/-- One answered write is its whole effect. -/
theorem State.busWrite_of_answered {s : State} (e : BusEvent) (h : s.answered 1) : s.busWrite e = s.after s.slots [e] := by
  obtain ⟨hb, hn⟩ := h
  rcases ha : s.answers with _ | ⟨a, as⟩
  · cases hf : Config.freeAnswer s.nextWrite <;>
      simp [State.busWrite, State.after, State.nextPerformed, Chip.afterWrites, hb, ha, hf]
  · have : a ≠ .never := hn a (by simp [ha])
    cases a <;> simp_all [State.busWrite, State.after, State.nextPerformed, Chip.afterWrites]

/-- A write in the middle of a command: after the events `es`, the next event is appended to them. -/
theorem State.busWrite_after {s : State} {sl : Slots} {es : List BusEvent} (e : BusEvent)
    (h : s.answered (es.length + 1)) : (s.after sl es).busWrite e = s.after sl (es ++ [e]) := by
  rw [State.busWrite_of_answered e (State.answered_after sl es h), State.after_slots, State.after_after]

theorem State.setSlots_after {s : State} {sl : Slots} {es : List BusEvent} (f : Slots → Slots) (h : s.busy = false) :
    (s.after sl es).setSlots f = s.after (f sl) es := by
  rw [State.setSlots_of_idle f (by simpa using h), State.after_slots, State.after_after, List.append_nil]

theorem State.flushSlot_after {s : State} {sl : Slots} {es : List BusEvent} (i : Fin 5)
    (h : s.answered (es.length + 1)) :
    (s.after sl es).flushSlot i =
      s.after sl (es ++ [.slotWrite s.config.busAddr (regOff i) (loByte sl[i]) (hiByte sl[i])]) := by
  simp only [State.flushSlot, State.memWrite, State.after_slots, State.after_config, State.busWrite_after _ h]

/-- A full flush after the events `es` appends its five events to them. -/
theorem State.flushAll_after {s : State} {sl : Slots} {es : List BusEvent} (h : s.answered (es.length + 5)) :
    (s.after sl es).flushAll = s.after sl (es ++ flushEvents s.config.busAddr sl) := by
  have h' : ∀ k, k ≤ 5 → s.answered (es.length + k) := fun k hk => State.answered_mono (by omega) h
  simp only [State.flushAll, physIndices, List.foldl_cons, List.foldl_nil]
  rw [State.flushSlot_after 0 (h' 1 (by omega)), State.flushSlot_after 1 (by simpa using h' 2 (by omega)),
    State.flushSlot_after 2 (by simpa using h' 3 (by omega)), State.flushSlot_after 3 (by simpa using h' 4 (by omega)),
    State.flushSlot_after 4 (by simpa using h' 5 (by omega))]
  simp [flushEvents, regOff, loByte, hiByte]

theorem State.cmdByte_after {s : State} {sl : Slots} {es : List BusEvent} (c : Byte) (h : s.answered (es.length + 1)) :
    (s.after sl es).cmdByte c = s.after sl (es ++ [.cmdWrite s.config.busAddr c]) := by
  simp only [State.cmdByte, State.after_config, State.busWrite_after _ h]

/-- `WriteDigit` is one slot and one event (R97). -/
theorem State.writeDigit_of_answered {s : State} (k : Fin 4) (code : Byte) (dot : Bool) (h : s.answered 1) :
    s.writeDigit k code dot =
      s.after (s.slots.set (phys k) (zext16 (code ||| dotBit dot)))
        [.slotWrite s.config.busAddr (regOff (phys k)) (code ||| dotBit dot) 0] := by
  rw [State.writeDigit, State.setSlot, State.setSlots_of_idle _ h.1, State.flushSlot_after _ (by simpa using h)]
  simp [Fin.getElem_fin]

/-- The error pattern is five words and five events (R131). -/
theorem State.errorPattern_of_answered {s : State} (h : s.answered 5) :
    s.errorPattern =
      s.after (Vector.replicate 5 0x0040) (flushEvents s.config.busAddr (Vector.replicate 5 0x0040)) := by
  rw [State.errorPattern, State.fillSlots, State.setSlots_of_idle _ h.1, State.flushAll_after (by simpa using h)]
  rfl

/-! ## Writes in a row, and a write that is never answered -/

/-- A list of writes on a busy block is nothing. -/
theorem State.foldl_busWrite_of_busy {s : State} (es : List BusEvent) (h : s.busy = true) :
    es.foldl (fun t e => t.busWrite e) s = s := by
  induction es with
  | nil => rfl
  | cons e es ih => rw [List.foldl_cons, State.busWrite_of_busy e h, ih]

/-- A list of answered writes is its whole effect. -/
theorem State.foldl_busWrite_of_answered {s : State} {es : List BusEvent} (h : s.answered es.length) :
    es.foldl (fun t e => t.busWrite e) s = s.after s.slots es := by
  induction es generalizing s with
  | nil => exact (State.after_nil s).symm
  | cons e es ih =>
    rw [List.foldl_cons, State.busWrite_of_answered e (State.answered_mono (by simp) h),
      ih (State.answered_after _ _ (by simpa [Nat.add_comm] using h)), State.after_slots, State.after_after]
    rfl

/-- A full flush is five writes in a row; none of them changes what the later ones send. -/
theorem State.flushAll_eq_foldl (s : State) :
    s.flushAll = (flushEvents s.config.busAddr s.slots).foldl (fun t e => t.busWrite e) s := by
  simp [State.flushAll, physIndices, State.flushSlot, State.memWrite, flushEvents, regOff, loByte, hiByte]

theorem State.heldAt_after {s : State} {n : Nat} (sl : Slots) (es : List BusEvent) (h : s.heldAt (es.length + n)) :
    (s.after sl es).heldAt n :=
  ⟨State.answered_after sl es h.1, by simpa using h.2⟩

/-- The write that is never answered is in the log, and the block is busy. -/
theorem State.busWrite_of_heldAt {s : State} (e : BusEvent) (h : s.heldAt 0) :
    (s.busWrite e).busLog = s.busLog ++ [e] ∧ (s.busWrite e).busy = true ∧
    ((s.busWrite e).chip = s.chip ∨ (s.busWrite e).chip = s.chip.take e) := by
  have hn : s.answers.head? = some .never := by simpa [List.head?_eq_getElem?] using h.2
  refine ⟨by simp [State.busWrite_busLog, h.1.1], by simp [State.busWrite_busy, hn], ?_⟩
  rw [State.busWrite_chip]
  split
  · exact .inr rfl
  · exact .inl rfl

/-- Of a list of writes held up at number `n`, the first `n` are made, that one stays unanswered, and the rest are not
made. -/
theorem State.foldl_busWrite_of_heldAt {s : State} {n : Nat} {es : List BusEvent} (hn : n < es.length) (h : s.heldAt n) :
    es.foldl (fun t e => t.busWrite e) s = (s.after s.slots (es.take n)).busWrite es[n] := by
  induction es generalizing s n with
  | nil => exact absurd hn (Nat.not_lt_zero n)
  | cons e es ih =>
    cases n with
    | zero =>
      rw [List.foldl_cons, State.foldl_busWrite_of_busy es (State.busWrite_of_heldAt e h).2.1]
      simp
    | succ n =>
      have h' : (s.after s.slots [e]).heldAt n := State.heldAt_after _ _ (by simpa [Nat.add_comm] using h)
      rw [List.foldl_cons, State.busWrite_of_answered e (State.answered_mono (by omega) h.1),
        ih (by simpa using hn) h']
      simp [State.after_after]

end Sys2Proof.Machine
end

