-- ==== Sys2Proof/Laws/Commands.lean ====
section
/-! SUPPORT. What executing a command can do, said once: it is made of command bytes, changes of the slots that keep the
high bytes, and slot flushes; so what these keep, every command and every step keeps. -/

namespace Sys2Proof.Machine

/-! ## Slot words have a zero high byte (R23) -/

/-- Every slot's high byte is 0. -/
abbrev Slots.low (sl : Slots) : Prop := ∀ k : Fin 5, hiByte sl[k] = 0

theorem Slots.low_set {sl : Slots} (i : Fin 5) (b : Byte) (h : Slots.low sl) : Slots.low (sl.set i (zext16 b)) := by
  intro k
  by_cases hk : i = k
  · subst hk; simp
  · have : i.val ≠ k.val := fun e => hk (Fin.ext e)
    simpa [Vector.getElem_set, this] using h k

theorem Slots.low_replicate (b : Byte) : Slots.low (Vector.replicate 5 (zext16 b)) := hiByte_replicate b

theorem Slots.low_writePos {sl : Slots} (p : Int) (b : Byte) (h : Slots.low sl) :
    Slots.low (writePos p (zext16 b) sl) := by
  unfold writePos
  split
  · intro k
    by_cases hk : p.toNat = k.val
    · simp [hk]
    · simpa [Vector.getElem_setIfInBounds, hk] using h k
  · exact h

theorem Slots.low_emitDigits {c : Config} {b F fuel n i : Nat} {p : Int} {sl : Slots} (h : Slots.low sl) :
    Slots.low (emitDigits c b F fuel n p i sl).2 := by
  induction fuel generalizing n p i sl with
  | zero => exact h
  | succ fuel ih =>
    simp only [emitDigits]
    split
    · exact ih (Slots.low_writePos _ _ h)
    · exact Slots.low_writePos _ _ h

theorem Slots.low_clearLeading {fuel : Nat} {p : Int} {sl : Slots} (h : Slots.low sl) :
    Slots.low (clearLeading fuel p sl) := by
  induction fuel generalizing p sl with
  | zero => exact h
  | succ fuel ih =>
    simp only [clearLeading]
    split
    · exact ih (Slots.low_writePos _ _ h)
    · exact h

theorem Slots.low_renderSlots {c : Config} {b F n : Nat} {neg : Bool} {sl : Slots} (h : Slots.low sl) :
    Slots.low (renderSlots c b neg F n sl) := by
  refine Slots.low_clearLeading ?_
  cases neg
  · exact Slots.low_emitDigits h
  · exact Slots.low_writePos _ _ (Slots.low_emitDigits h)

/-! ## The building blocks of every command -/

/-- What a property must be kept by, for every command to keep it. -/
structure KeptByBlocks (I : State → Prop) : Prop where
  cmdByte   : ∀ (s : State) (c : Byte), c ∈ commandBytes → I s → I (s.cmdByte c)
  flushSlot : ∀ (s : State) (i : Fin 5), I s → I (s.flushSlot i)
  setSlots  : ∀ (s : State) (f : Slots → Slots), (∀ sl, Slots.low sl → Slots.low (f sl)) → I s → I (s.setSlots f)

namespace KeptByBlocks
variable {I : State → Prop} (k : KeptByBlocks I)
include k

theorem flushAll {s : State} (h : I s) : I s.flushAll := by
  simp only [State.flushAll, physIndices, List.foldl_cons, List.foldl_nil]
  exact k.flushSlot _ _ (k.flushSlot _ _ (k.flushSlot _ _ (k.flushSlot _ _ (k.flushSlot _ _ h))))

theorem fillSlots {s : State} (b : Byte) (h : I s) : I (s.fillSlots (zext16 b)) :=
  k.setSlots _ _ (fun _ _ => Slots.low_replicate b) h

theorem setSlot {s : State} (i : Fin 5) (b : Byte) (h : I s) : I (s.setSlot i (zext16 b)) :=
  k.setSlots _ _ (fun _ hl => Slots.low_set i b hl) h

theorem writeDigit {s : State} (d : Fin 4) (code : Byte) (dot : Bool) (h : I s) : I (s.writeDigit d code dot) :=
  k.flushSlot _ _ (k.setSlot _ _ h)

theorem errorPattern {s : State} (h : I s) : I s.errorPattern := k.flushAll (k.fillSlots _ h)

/-- Every command keeps what its building blocks keep. -/
theorem exec {i : Instr} {s t : State} (he : Machine.exec i s = .next t) (h : I s) : I t := by
  cases i with
  | init =>
    cases he
    exact k.flushAll (k.fillSlots _ (k.cmdByte _ _ (by decide) (k.cmdByte _ _ (by decide) (k.cmdByte _ _ (by decide) h))))
  | clear => cases he; exact k.flushAll (k.fillSlots _ h)
  | setblink rate => cases he; exact k.cmdByte _ _ (by revert rate; decide) h
  | setbright level => cases he; exact k.cmdByte _ _ (by revert level; decide) h
  | showcolon on => cases he; exact k.flushSlot _ _ (k.setSlot _ _ h)
  | showdigit idx val dot =>
    cases he
    unfold showDigit
    split
    · split
      · exact k.writeDigit _ _ _ h
      · exact h
    · exact h
  | shownum V base frac =>
    cases he
    simp only [showNum]
    split
    · exact h
    · split
      · exact k.flushAll (k.setSlots _ _ (fun _ hl => Slots.low_renderSlots hl) h)
      · exact k.errorPattern h
  | showerr => cases he; exact k.errorPattern h
  | setseg idx code dot =>
    cases he
    unfold setSeg
    split
    · exact k.writeDigit _ _ _ h
    · exact h
  | flushall => cases he; exact k.flushAll h

end KeptByBlocks

/-! ## One step -/

/-- A step ends in a next state, and it is one of: nothing, the reset, a word ignored, a command executed. -/
theorem step_cases {s t : State} (h : step s = .next t) :
    t = s ∨
    (∃ rest, s.inputs = .reset :: rest ∧ t = State.assertReset { s with inputs := rest }) ∨
    ∃ w rest, s.inputs = .command w :: rest ∧ s.busy = false ∧
      ((∃ e, decode w = .error e ∧ t = { s with inputs := rest }) ∨
        ∃ i, decode w = .ok i ∧ exec i { s with inputs := rest } = .next t) := by
  unfold step State.nextInput at h
  rcases hi : s.inputs with _ | ⟨x, rest⟩
  · simp only [hi] at h
    cases h
    exact .inl rfl
  · cases x with
    | reset =>
      simp only [hi] at h
      cases h
      exact .inr (.inl ⟨rest, rfl, rfl⟩)
    | command w =>
      simp only [hi] at h
      split at h
      · cases h
        exact .inl rfl
      · next hb =>
        refine .inr (.inr ⟨w, rest, rfl, by simpa using hb, ?_⟩)
        split at h
        · next i hd => exact .inr ⟨i, hd, h⟩
        · next e hd =>
          cases h
          exact .inl ⟨e, hd, rfl⟩

/-- Every step keeps what the building blocks keep, if taking an input off the list and the reset keep it too. -/
theorem KeptByBlocks.step {I : State → Prop} (k : KeptByBlocks I)
    (hin : ∀ (s : State) (rest : List HostInput), I s → I { s with inputs := rest })
    (hreset : ∀ s : State, I s → I s.assertReset)
    {s t : State} (h : I s) (hs : Machine.step s = .next t) : I t := by
  rcases step_cases hs with rfl | ⟨rest, -, rfl⟩ | ⟨w, rest, -, -, ⟨e, -, rfl⟩ | ⟨i, -, he⟩⟩
  · exact h
  · exact hreset _ (hin s rest h)
  · exact hin s rest h
  · exact k.exec he (hin s rest h)

end Sys2Proof.Machine
end

