-- ==== Sys2Proof/Laws/Encoding.lean ====
section
/-! SUPPORT. Fields and bits of a command word: what the decoder reads is what the encoder writes. -/

namespace Sys2Proof

/-- A field is 0 when each of its bits is. -/
theorem CmdWord.field_eq_zero {w : CmdWord} {hi lo : Nat} (h : ∀ i < hi + 1 - lo, w.getLsbD (lo + i) = false) :
    w.field hi lo = 0 := by
  have : w.extractLsb' lo (hi + 1 - lo) = 0#_ := by
    apply BitVec.eq_of_getLsbD_eq
    intro i hi
    simp [hi, h i hi]
  simp [CmdWord.field, this]

/-- The bits of a word inside a field are the bits of the field's value. -/
theorem CmdWord.bit_of_field {w : CmdWord} {hi lo v : Nat} (h : w.field hi lo = v) {j : Nat} (h1 : lo ≤ j) (h2 : j ≤ hi) :
    w.getLsbD j = v.testBit (j - lo) := by
  subst h
  simp [CmdWord.field, BitVec.testBit_toNat, show j - lo < hi + 1 - lo by omega, show lo + (j - lo) = j by omega]

/-- A word that a row matches has the row's bit wherever the mask is 1. -/
theorem Row.bit_of_hits {r : Row} {w : CmdWord} (h : r.hits w = true) {j : Nat} (hj : r.mask.getLsbD j = true) :
    w.getLsbD j = r.pattern.getLsbD j := by
  have h' : w &&& r.mask = r.pattern := by simpa [Row.hits] using h
  rw [← h', BitVec.getLsbD_and, hj, Bool.and_true]

/-- The base of a base's selector (R71). -/
@[simp] theorem baseOfSel_sel (b : Base) : baseOfSel b.sel.toNat = b := by cases b <;> rfl

/-- The selector of a base read from two bits. -/
theorem sel_baseOfSel (x : BitVec 2) : (baseOfSel x.toNat).sel = x := by revert x; decide

/-- Every row of a command is in the opcode table. -/
theorem row_mem_opcodeTable (i : Instr) : i.row ∈ opcodeTable := by
  cases i <;> simp [opcodeTable, Instr.row]

end Sys2Proof
end

