-- ==== Sys2Proof/Laws/PerInstr.lean ====
section
/-! SUPPORT. Statements made of every command as syntax, one lemma per constructor of `Instr`. -/

namespace Sys2Proof.Laws.TableRow

/-- The encoded word of a command matches the command's own row of the opcode table: its opcode is the row's, and every
must-be-zero bit of its format is 0 (R66 to R70, R72). -/
def Statement (i : Instr) : Prop := i.row.hits (encode i) = true

/-- `w & mask = match`, bit by bit. -/
theorem of_bits {r : Row} {w : CmdWord} (h : ∀ j < 64, (w.getLsbD j && r.mask.getLsbD j) = r.pattern.getLsbD j) :
    r.hits w = true := by
  rw [Row.hits, beq_iff_eq]
  exact BitVec.eq_of_getLsbD_eq fun j hj => by rw [BitVec.getLsbD_and, h j hj]

theorem init : Statement .init := by unfold Statement; decide
theorem clear : Statement .clear := by unfold Statement; decide
theorem setblink (rate : BitVec 2) : Statement (.setblink rate) := by revert rate; unfold Statement; decide
theorem setbright (level : BitVec 4) : Statement (.setbright level) := by revert level; unfold Statement; decide
theorem showcolon (on : Bool) : Statement (.showcolon on) := by revert on; unfold Statement; decide
theorem showdigit (idx : Byte) (val : BitVec 16) (dot : Bool) : Statement (.showdigit idx val dot) := by
  refine of_bits fun j hj => ?_
  simp only [encode, flagWord, Instr.row]
  interval_cases j <;> simp
theorem shownum (V : ValueField) (base : Base) (frac : BitVec 3) : Statement (.shownum V base frac) := by
  refine of_bits fun j hj => ?_
  simp only [encode, Instr.row]
  interval_cases j <;> simp
theorem showerr : Statement .showerr := by unfold Statement; decide
theorem setseg (idx code : Byte) (dot : Bool) : Statement (.setseg idx code dot) := by
  refine of_bits fun j hj => ?_
  simp only [encode, flagWord, Instr.row]
  interval_cases j <;> simp
theorem flushall : Statement .flushall := by unfold Statement; decide

end Sys2Proof.Laws.TableRow
end

