-- ==== Sys2Proof/Tests/Slice0.lean ====
section
/-! SUPPORT. Tests: expected results are the spec's own (spec/95_test_vectors.md, named in each comment), and the
witnesses that the statements' hypotheses can be met together. -/

namespace Sys2Proof.Tests
open Sys2Proof Sys2Proof.Machine

/-! ## Helpers -/

/-- The reset state with these slots, and these answers of the BusAdapter to come. -/
def start (sl : Slots) (as : List Answer := []) : State := { State.reset with slots := sl, answers := as }

/-- The start of the S1 and S2 vectors. -/
def vecSlots : Slots := #v[0x0011, 0x0022, 0x0033, 0x0044, 0x0055]

/-- The start of the SHOWNUM vectors, the colon hidden. -/
def numSlots : Slots := #v[0x0011, 0x0022, 0x0000, 0x0033, 0x0044]

/-- The slots after one step on a word. -/
def slotsAfter (sl : Slots) (w : Nat) : Option Slots :=
  match step ((start sl).withFetchWord 64 w) with
  | .next t => some t.slots
  | _ => none

/-- The bus log after one step on a word. -/
def logAfter (sl : Slots) (w : Nat) : Option (List BusEvent) :=
  match step ((start sl).withFetchWord 64 w) with
  | .next t => some t.busLog
  | _ => none

/-! ## Decoding: words written out from the encoding tables (R66 to R69), bit by bit -/

theorem test_decode_init : decode 0x0100000000000000 = .ok .init := by decide
theorem test_decode_clear : decode 0x0200000000000000 = .ok .clear := by decide
-- op 0x03, must-be-zero 55:2, rate 0b10 in bits 1:0
theorem test_decode_setblink :
    decode 0b0000001100000000000000000000000000000000000000000000000000000010 = .ok (.setblink 2) := by decide
theorem test_decode_setbright : decode 0x040000000000000E = .ok (.setbright 14) := by decide
theorem test_decode_showcolon : decode 0x0500000000000001 = .ok (.showcolon true) := by decide
-- op 0x06, idx 0xC3 in 55:48, 47:41 zero, dot 1 in bit 40, 39:16 zero, val 0xA50F in 15:0
theorem test_decode_showdigit :
    decode 0b0000011011000011000000010000000000000000000000001010010100001111 = .ok (.showdigit 0xC3 0xA50F true) := by
  decide
-- op 0x07, bsel 0b10 in 55:54, 53:51 zero, frac 0b110 in 50:48, 47:40 zero, V in 39:0
theorem test_decode_shownum :
    decode 0b0000011110000110000000001111111111111111111100111000000000000001 = .ok (.shownum 0xFFFFF38001 .dec 6) := by
  decide
theorem test_decode_shownum_bases :
    decode 0x0700000000050000 = .ok (.shownum 0x50000 .bin 0) ∧ decode 0x0741000000400000 = .ok (.shownum 0x400000 .oct 1) ∧
    decode 0x07C00000BEEF0000 = .ok (.shownum 0xBEEF0000 .hex 0) := by decide
theorem test_decode_showerr : decode 0x0800000000000000 = .ok .showerr := by decide
-- op 0x09, idx 3, dot 1, code 0x7F (BF4)
theorem test_decode_setseg : decode 0x090301000000007F = .ok (.setseg 3 0x7F true) := by decide
theorem test_decode_flushall : decode 0x0A00000000000000 = .ok .flushall := by decide

/-- IL1 to IL3: unassigned opcodes. -/
theorem test_unassigned_opcodes_refused :
    decode 0x0000000000000000 = .error (.unassignedOpcode 0x00) ∧
    decode 0x0B00000000000000 = .error (.unassignedOpcode 0x0B) ∧
    decode 0xFF00000000000000 = .error (.unassignedOpcode 0xFF) := by decide

/-- IL4 to IL14: a must-be-zero bit set, in every format. -/
theorem test_must_be_zero_refused :
    decode 0x0200000000000001 = .error (.mustBeZero 0x02) ∧ decode 0x0180000000000000 = .error (.mustBeZero 0x01) ∧
    decode 0x0300000000000004 = .error (.mustBeZero 0x03) ∧ decode 0x0400000000000010 = .error (.mustBeZero 0x04) ∧
    decode 0x0500000000000002 = .error (.mustBeZero 0x05) ∧ decode 0x0600020000000001 = .error (.mustBeZero 0x06) ∧
    decode 0x0600000000010001 = .error (.mustBeZero 0x06) ∧ decode 0x0900000000000140 = .error (.mustBeZero 0x09) ∧
    decode 0x0788000000010000 = .error (.mustBeZero 0x07) ∧ decode 0x0780010000010000 = .error (.mustBeZero 0x07) ∧
    decode 0x0A00000000000001 = .error (.mustBeZero 0x0A) := by decide

theorem test_decodeTableWord : decodeTableWord 64 0x0300000000000003 = some (.setblink 3) := by decide

/-! ## WellFormed: an ill-formed term for each check -/

theorem test_index_check_refuses : validIndex 4 = false ∧ (Instr.setseg 4 0x7F true).wellFormed = false ∧
    (Instr.showdigit 4 1 false).wellFormed = false := by decide
theorem test_digit_check_refuses : validDigit 16 = false ∧ (Instr.showdigit 1 16 true).wellFormed = false := by decide
theorem test_frac_check_refuses : validFrac 5 = false ∧ (Instr.shownum 0x10000 .dec 5).wellFormed = false := by decide
theorem test_checks_accept : (Instr.setseg 3 0xFF true).wellFormed = true ∧
    (Instr.showdigit 3 15 false).wellFormed = true ∧ (Instr.shownum 0 .bin 4).wellFormed = true := by decide

/-! ## Commands, one step each -/

/-- CC1. -/
theorem test_init_events : logAfter #v[0x11, 0x22, 0x02, 0x44, 0x55] 0x0100000000000000 =
    some [.cmdWrite 0x70 0x21, .cmdWrite 0x70 0x81, .cmdWrite 0x70 0xEE, .slotWrite 0x70 0 0 0, .slotWrite 0x70 2 0 0,
      .slotWrite 0x70 4 0 0, .slotWrite 0x70 6 0 0, .slotWrite 0x70 8 0 0] := by decide
theorem test_init_slots : slotsAfter #v[0x11, 0x22, 0x02, 0x44, 0x55] 0x0100000000000000 = some #v[0, 0, 0, 0, 0] := by
  decide
/-- BF12. -/
theorem test_clear : slotsAfter #v[0xFF, 0x80, 0x00, 0x40, 0xFF] 0x0200000000000000 = some #v[0, 0, 0, 0, 0] := by decide
/-- CC4, CC5. -/
theorem test_setblink : logAfter vecSlots 0x0300000000000002 = some [.cmdWrite 0x70 0x85] ∧
    logAfter vecSlots 0x0300000000000003 = some [.cmdWrite 0x70 0x87] := by decide
/-- CC9. -/
theorem test_setbright : logAfter vecSlots 0x040000000000000F = some [.cmdWrite 0x70 0xEF] := by decide
/-- BF7: the stray colon word is replaced whole. -/
theorem test_showcolon_off : slotsAfter #v[0xFF, 0x80, 0x33, 0x40, 0xFF] 0x0500000000000000 =
    some #v[0xFF, 0x80, 0x00, 0x40, 0xFF] := by decide
/-- BF8. -/
theorem test_showcolon_on : logAfter #v[0xFF, 0x80, 0x00, 0x40, 0xFF] 0x0500000000000001 =
    some [.slotWrite 0x70 4 0x02 0x00] := by decide
/-- S1: logical index 2 is slot 3, offset 6. -/
theorem test_showdigit : slotsAfter vecSlots 0x0602010000000003 = some #v[0x11, 0x22, 0x33, 0xCF, 0x55] ∧
    logAfter vecSlots 0x0602010000000003 = some [.slotWrite 0x70 6 0xCF 0x00] := by decide
/-- S2: 16 is not reduced to 0; index 4 is no slot. -/
theorem test_showdigit_ignored : slotsAfter vecSlots 0x0601010000000010 = some vecSlots ∧
    logAfter vecSlots 0x0604000000000001 = some [] := by decide
/-- SN41: the sign stands left of the leading digit, across the colon. -/
theorem test_shownum_hex : slotsAfter numSlots 0x07C100FFFFFE8000 = some #v[0x00, 0x40, 0x00, 0x86, 0x7F] := by decide
/-- SN59 (`Fits` fails, R141): the minus sign has no slot and is discarded. -/
theorem test_shownum_discard : slotsAfter numSlots 0x078300FFFFFF8000 = some #v[0xBF, 0x6D, 0x00, 0x3F, 0x3F] := by decide
/-- SE1. -/
theorem test_showerr : slotsAfter #v[1, 2, 2, 4, 5] 0x0800000000000000 = some #v[0x40, 0x40, 0x40, 0x40, 0x40] := by
  decide
/-- BF4: 0x7F with the dot is 0xFF, in slot 4. -/
theorem test_setseg : slotsAfter #v[0xFF, 0x80, 0x33, 0x40, 0x55] 0x090301000000007F =
    some #v[0xFF, 0x80, 0x33, 0x40, 0xFF] := by decide
/-- BF2: without the dot, bit 7 of the code stays. -/
theorem test_setseg_point : logAfter vecSlots 0x0901000000000080 = some [.slotWrite 0x70 2 0x80 0x00] := by decide
/-- PR6, BF11. -/
theorem test_flushall : logAfter #v[0xFF, 0x80, 0x00, 0x40, 0xFF] 0x0A00000000000000 =
    some [.slotWrite 0x70 0 0xFF 0, .slotWrite 0x70 2 0x80 0, .slotWrite 0x70 4 0 0, .slotWrite 0x70 6 0x40 0,
      .slotWrite 0x70 8 0xFF 0] := by decide
/-- IL1: the all-zero word does nothing. -/
theorem test_illegal : slotsAfter vecSlots 0 = some vecSlots ∧ logAfter vecSlots 0 = some [] := by decide

/-! ## The value field and the chip -/

/-- SN64: the most negative value. -/
theorem test_value_most_negative : sint40 0x8000000000 = -8388608 * 65536 := by decide

/-- P1, step 6: `S(8,3F,00)`; a performed write lands at offsets 8 and 9, a failed one nowhere. -/
theorem test_chip_takes_performed_write :
    ((start vecSlots [.ok]).busWrite (.slotWrite 0x70 8 0x3F 0x00)).chip.display.read 8 = some 0x3F ∧
    ((start vecSlots [.ok]).busWrite (.slotWrite 0x70 8 0x3F 0x00)).chip.display.read 9 = some 0x00 ∧
    ((start vecSlots [.error]).busWrite (.slotWrite 0x70 8 0x3F 0x00)).chip = Chip.poweredOn Config.freeDisplay
      Config.freeSetting := ⟨by decide, by decide, rfl⟩
/-- R28 to R30, after INIT. -/
theorem test_chip_settings_after_init :
    (initCmd (start vecSlots (List.replicate 8 .ok))).2.chip.settings = [(0x21, 0x21), (0x80, 0x81), (0xE0, 0xEE)] := by
  decide

/-! ## Witnesses: each statement's hypotheses met together -/

/-- An idle block, the next answers of every answered kind. -/
def mixed : State := start vecSlots [.ok, .error, .ok, .error, .ok, .error, .ok, .error]

/-- An idle block, eight writes performed. -/
def lucky : State := start vecSlots (List.replicate 8 .ok)

/-- An idle block, eight writes failed. -/
def unlucky : State := start vecSlots (List.replicate 8 .error)

/-- An idle block whose next write is never answered. -/
def doomed : State := start vecSlots [.never]

/-- A block held up at an unanswered write. -/
def stuck : State := { start vecSlots with busy := true }

/-- -12.5 (SN20): `V` = 0xFFFFF38000. -/
theorem value_of_sn20 : valueOf 0xFFFFF38000 = -12.5 := by
  have : sint40 0xFFFFF38000 = -819200 := by decide
  rw [valueOf, this]
  norm_num

/-- -12.5 fits in base 10 without a fraction. -/
theorem sn20_fits : fitsAt (valueOf 0xFFFFF38000) Base.dec.radix 0 := by
  rw [value_of_sn20, fitsAt]
  norm_num [Base.radix]

theorem wit_DecodedWordIsItsEncoding : ∃ w i, decode w = .ok i := ⟨0x06FF01000000FFFF, _, rfl⟩
theorem wit_DecoderAcceptsExactlyTheTableRows :
    legalWord 0x0787007FFFFFFFFF = true ∧ ∃ i, decode 0x0787007FFFFFFFFF = .ok i := ⟨by decide, _, rfl⟩
theorem wit_NoTwoTableRowsMatchOneWord : ∃ r ∈ opcodeTable, r.hits 0x0A00000000000000 = true := by decide
theorem wit_StepRunsTheDecodedCommand :
    (mixed.withFetchWord 64 0x0A00000000000000).inputs = .command 0x0A00000000000000 :: [] ∧
    (mixed.withFetchWord 64 0x0A00000000000000).busy = false ∧ decode 0x0A00000000000000 = .ok .flushall := by decide
theorem wit_IllegalWordChangesNothing :
    (mixed.withFetchWord 64 0x0600000000010001).inputs = .command 0x0600000000010001 :: [] ∧
    (mixed.withFetchWord 64 0x0600000000010001).busy = false ∧ legalWord 0x0600000000010001 = false := by decide
theorem wit_WaitingBlockDoesNothing_idle : mixed.inputs = [] := by decide
theorem wit_WaitingBlockDoesNothing_busy :
    State.inputs { stuck with inputs := [.command 0] } = .command 0 :: [] ∧
    State.busy { stuck with inputs := [.command 0] } = true := by decide
theorem wit_ResetInputRestoresTheResetState : State.inputs { stuck with inputs := [.reset] } = .reset :: [] := by decide
theorem wit_answered : mixed.answered 1 ∧ mixed.answered 5 ∧ mixed.answered 8 ∧ State.reset.answered 8 := by decide
theorem wit_ClearZeroesAndFlushesAllSlots : mixed.answered 5 := by decide
theorem wit_SetSegStoresTheRawCodeInOneDigitSlot_below_colon :
    (1 : Byte).toNat < 4 ∧ mixed.answered 1 ∧ (1 : Fin 5).val = if 2 ≤ (1 : Byte).toNat then (1 : Byte).toNat + 1 else 1 := by
  decide
theorem wit_SetSegStoresTheRawCodeInOneDigitSlot_last :
    (3 : Byte).toNat < 4 ∧ mixed.answered 1 ∧ (4 : Fin 5).val = if 2 ≤ (3 : Byte).toNat then (3 : Byte).toNat + 1 else 3 := by
  decide
theorem wit_SetSegStoresTheRawCodeInOneDigitSlot_invalid : 4 ≤ (4 : Byte).toNat := by decide
theorem wit_ShowColonReplacesTheColonWord : mixed.answered 1 := by decide
theorem wit_FlushAllSendsTheFiveSlots : mixed.answered 5 := by decide
theorem wit_ShowDigitStoresTheEncodedDigit_last :
    (3 : Byte).toNat < 4 ∧ (15 : BitVec 16).toNat < 16 ∧ mixed.answered 1 ∧
    (4 : Fin 5).val = (if 2 ≤ (3 : Byte).toNat then (3 : Byte).toNat + 1 else 3) := by decide
theorem wit_ShowDigitStoresTheEncodedDigit_invalid : 4 ≤ (4 : Byte).toNat ∨ 16 ≤ (15 : BitVec 16).toNat := by decide
theorem wit_ShowDigitStoresTheEncodedDigit_no_digit : 4 ≤ (3 : Byte).toNat ∨ 16 ≤ (16 : BitVec 16).toNat := by decide
theorem wit_InputRangeErrorsAreNoOps :
    labelOf (.showdigit 3 16 false) mixed = .ignored ∧ labelOf (.setseg 255 1 false) mixed = .ignored := by decide
theorem wit_InitRunsThePowerOnSequence : mixed.answered 8 := by decide
theorem wit_SetBlinkSendsTheBlinkByte : mixed.answered 1 := by decide
theorem wit_SetBrightSendsTheBrightnessByte : mixed.answered 1 := by decide
theorem wit_ShowErrShowsTheErrorPattern :
    mixed.answered 5 ∧ labelOf (.shownum 0x8000000000 .hex 4) mixed = .overflow := by decide
theorem wit_ReservedFracIsIgnored : 4 < (5 : BitVec 3).toNat := by decide
theorem wit_OverflowShowsTheErrorPattern :
    labelOf (.shownum 0x00270F8000 .dec 4) mixed = .overflow ∧ mixed.answered 5 := by decide
theorem wit_RenderLeavesTheClosedForm :
    (4 : BitVec 3).toNat ≤ 4 ∧ fitsAt (valueOf 0xFFFFF38000) Base.dec.radix 0 ∧ mixed.answered 5 :=
  ⟨by decide, sn20_fits, by decide⟩
theorem wit_FittingRenderSpellsThePrintedInteger :
    (2 : BitVec 3).toNat ≤ 4 ∧ fitsAt (valueOf 0xFFFFF38000) Base.dec.radix 0 ∧ mixed.answered 5 ∧
    rendersWithinSlots (valueOf 0xFFFFF38000) Base.dec.radix (2 : BitVec 3).toNat := by
  refine ⟨by decide, sn20_fits, by decide, ?_⟩
  have h : finalF (valueOf 0xFFFFF38000) Base.dec.radix (2 : BitVec 3).toNat ≤ 2 := Nat.findGreatest_le _
  rw [rendersWithinSlots]
  split <;> omega
theorem wit_SheddingEndsAtTheLargestCountThatFits :
    shed (magnitude 0xFFFFF38000) 10 (limitOf 10 (isNeg 0xFFFFF38000)) 2 = 1 ∧
    fitsAt (valueOf 0xFFFFF38000) Base.dec.radix 0 := ⟨by decide, sn20_fits⟩
theorem wit_SheddingEndsAtTheLargestCountThatFits_none : ∀ G ≤ 0, ¬ fitsAt (valueOf 0x8000000000) Base.bin.radix G := by
  have : sint40 0x8000000000 = -549755813888 := by decide
  rintro _ ⟨⟩
  rw [fitsAt, valueOf, this]
  norm_num [Base.radix, abs_of_neg]
theorem wit_DecimalPointStandsOnTheBoundaryDigit :
    mixed.busy = false ∧ labelOf (.shownum 0xFFFFF38000 .dec 2) mixed = .done ∧
    ∃ t, exec (.shownum 0xFFFFF38000 .dec 2) mixed = .next t := ⟨by decide, by decide, _, rfl⟩
theorem wit_RenderKeepsTheColonSlot :
    (∃ t, exec (.shownum 0 .dec 2) mixed = .next t) ∧ labelOf (.shownum 0 .dec 2) mixed = .done ∧
    labelOf (.shownum 0x8000000000 .dec 2) mixed = .overflow ∧ mixed.busy = false := by
  exact ⟨⟨_, rfl⟩, by decide, by decide, by decide⟩
theorem wit_RenderErasesEarlierDigits :
    mixed.busy = false ∧ State.reset.busy = false ∧ mixed.config = State.reset.config ∧ mixed.slots ≠ State.reset.slots ∧
    labelOf (.shownum 0 .dec 2) mixed = .done ∧ (∃ t, exec (.shownum 0 .dec 2) mixed = .next t) ∧
    ∃ t, exec (.shownum 0 .dec 2) State.reset = .next t :=
  ⟨by decide, by decide, by decide, by decide, by decide, ⟨_, rfl⟩, _, rfl⟩
theorem wit_DecimalValueHasOneField : fieldOf? (valueOf 0xFFFFF38000) = some 0xFFFFF38000 := by
  rw [value_of_sn20, fieldOf?]
  norm_num
  decide
theorem wit_FlushSlotSendsTheSlotAtTwiceItsIndex : mixed.answered 1 := by decide
theorem wit_PrevWalksTheDigitSlotsLeftward : (-1 : Int) < 0 ∧ (2 : Fin 4).val = (1 : Fin 4).val + 1 := by decide
theorem wit_SlotHighBytesStayZero :
    (mixed.withFetchWord 64 0x0800000000000000).highBytesZero ∧
    ∃ t, step (mixed.withFetchWord 64 0x0800000000000000) = .next t := ⟨by decide, _, rfl⟩
theorem wit_LogHoldsOnlyTheEventsOfTheSpec :
    (lucky.withFetchWord 64 0x0100000000000000).highBytesZero ∧ (lucky.withFetchWord 64 0x0100000000000000).logLegal ∧
    ∃ t, step (lucky.withFetchWord 64 0x0100000000000000) = .next t := ⟨by decide, by decide, _, rfl⟩
/-- A log that ends with what the slots hold. -/
def logged : State := { lucky with
  slots := #v[0x11, 0x22, 0x02, 0x44, 0x55]
  busLog := [.slotWrite 0x70 4 0 0, .slotWrite 0x70 4 2 0]
  chip := ⟨[(4, 2), (5, 0)], []⟩ }
theorem lastPayload_logged (off : Byte) :
    lastPayload off logged.busLog = if 4 = off then some (2, 0) else none := by
  by_cases h : 4#8 = off <;> simp [lastPayload, logged, h]
theorem wit_LogMirrorsTheBuffer : (logged.withFetchWord 64 0x0500000000000000).mirrored ∧
    ∃ t, step (logged.withFetchWord 64 0x0500000000000000) = .next t := by
  refine ⟨fun _ i p h => ?_, _, rfl⟩
  rw [State.withFetchWord_busLog, lastPayload_logged] at h
  split at h
  · next e =>
    have : i = 2 := by revert e; revert i; decide
    subst this
    cases h
    decide
  · cases h
theorem wit_ChipHoldsWhatWasLastSent : (logged.withFetchWord 64 0x0500000000000000).performed 8 ∧
    (logged.withFetchWord 64 0x0500000000000000).chipMirrored ∧
    ∃ t, step (logged.withFetchWord 64 0x0500000000000000) = .next t := by
  refine ⟨by decide, fun i p h => ?_, _, rfl⟩
  rw [State.withFetchWord_busLog, lastPayload_logged] at h
  split at h
  · next e =>
    have : i = 2 := by revert e; revert i; decide
    subst this
    cases h
    decide
  · cases h
theorem wit_ChipMemoriesStayCanonical : (lucky.withFetchWord 64 0x0100000000000000).chipCanonical ∧
    ∃ t, step (lucky.withFetchWord 64 0x0100000000000000) = .next t := ⟨by decide, _, rfl⟩
theorem wit_StepKeepsTheParameters : ∃ t, step (mixed.withFetchWord 64 0x0100000000000000) = .next t := ⟨_, rfl⟩
theorem wit_AnswersNeverReachTheBlock : lucky.sameBlock unlucky ∧ lucky.answers ≠ unlucky.answers ∧
    (∀ a ∈ lucky.answers, a ≠ .never) ∧ ∀ a ∈ unlucky.answers, a ≠ .never :=
  ⟨⟨rfl, rfl, rfl, rfl, rfl⟩, by decide, by decide, by decide⟩
theorem wit_EveryInputIsWorkedOff :
    State.busy { mixed with inputs := [.command 0x0100000000000000, .reset, .command 0] } = false ∧
    ∀ a ∈ mixed.answers, a ≠ .never := by decide
theorem wit_EventCountOfEachCommand : mixed.answered (busWrites .init) ∧ busWrites .init = 8 ∧
    mixed.answered (busWrites (.setseg 4 0 false)) ∧ busWrites (.setseg 4 0 false) = 0 := by decide
theorem wit_UnansweredWriteStallsTheBlock_first : doomed.heldAt 0 ∧ 0 < busWrites .clear ∧ doomed.sameBlock lucky ∧
    lucky.answered 8 ∧ ∃ w, exec .clear lucky = .next w :=
  ⟨by decide, by decide, ⟨rfl, rfl, rfl, rfl, rfl⟩, by decide, _, rfl⟩
/-- An idle block whose first `n` writes are answered and whose next one never is. -/
def doomedAt (n : Nat) : State := start vecSlots (List.replicate n .ok ++ [.never])
theorem wit_UnansweredWriteStallsTheBlock_within_init : ∀ n ∈ [2, 3, 7], (doomedAt n).heldAt n ∧ n < busWrites .init := by
  decide
theorem wit_UnansweredWriteStallsTheBlock_last_of_flush : (doomedAt 4).heldAt 4 ∧ 4 < busWrites .showerr := by decide
/-- R233 on INIT held up at its second and at its fourth write: the slots before and after the clear. -/
theorem test_init_unanswered : (initCmd (doomedAt 1)).2.slots = vecSlots ∧ (initCmd (doomedAt 1)).2.busLog.length = 2 ∧
    (initCmd (doomedAt 3)).2.slots = #v[0, 0, 0, 0, 0] ∧ (initCmd (doomedAt 3)).2.busLog.length = 4 := by decide
theorem wit_FailedWritesLeaveTheChipStale : unlucky.busy = false ∧ unlucky.failed 8 ∧ lucky.performed 8 ∧
    unlucky.sameBlock lucky := ⟨by decide, by decide, by decide, rfl, rfl, rfl, rfl, rfl⟩
theorem wit_FullFlushReachesTheChip : lucky.busy = false ∧ lucky.performed 8 ∧ (4 : BitVec 3).toNat ≤ 4 := by decide
theorem wit_OneSlotCommandsReachOnlyTheirRegisters_setseg :
    (∃ t, exec (.setseg 3 0xFF false) lucky = .next t) ∧ (3 : Byte).toNat < 4 ∧
    (4 : Fin 5).val = (if 2 ≤ (3 : Byte).toNat then (3 : Byte).toNat + 1 else 3) ∧ lucky.busy = false ∧
    lucky.performed 1 := ⟨⟨_, rfl⟩, by decide, by decide, by decide, by decide⟩
theorem wit_OneSlotCommandsReachOnlyTheirRegisters_showdigit :
    (∃ t, exec (.showdigit 1 15 true) lucky = .next t) ∧ (1 : Byte).toNat < 4 ∧ (15 : BitVec 16).toNat < 16 ∧
    (1 : Fin 5).val = (if 2 ≤ (1 : Byte).toNat then (1 : Byte).toNat + 1 else 1) ∧ lucky.busy = false ∧
    lucky.performed 1 := ⟨⟨_, rfl⟩, by decide, by decide, by decide, by decide, by decide⟩
theorem wit_OneSlotCommandsReachOnlyTheirRegisters_showcolon :
    (∃ t, exec (.showcolon true) lucky = .next t) ∧ lucky.busy = false ∧ lucky.performed 1 :=
  ⟨⟨_, rfl⟩, by decide, by decide⟩
theorem wit_FullFlushWritesOffsetsZeroToNineOnly : ∃ t, exec (.shownum 0 .dec 5) lucky = .next t := ⟨_, rfl⟩
theorem wit_SettingsFollowTheCommandBytes : (∃ t, exec (.setblink 3) lucky = .next t) ∧
    (∃ t, exec (.setbright 15) lucky = .next t) ∧ (∃ t, exec .init lucky = .next t) ∧ lucky.busy = false ∧
    lucky.performed 1 ∧ lucky.performed 3 := ⟨⟨_, rfl⟩, ⟨_, rfl⟩, ⟨_, rfl⟩, by decide, by decide, by decide⟩
/-- A block with a word to run, eight writes performed, and a chip whose oscillator is enabled. -/
def enabled (w : Nat) : State :=
  State.withFetchWord { lucky with chip := .poweredOn (fun _ => 0xAA) (fun _ => 0x21) } 64 w
theorem wit_OscillatorStaysEnabled : (enabled 0x0300000000000003).chip.settings.read 0x21 = some 0x21 ∧
    ∃ t, step (enabled 0x0300000000000003) = .next t ∧ t.chip ≠ (enabled 0x0300000000000003).chip :=
  ⟨by decide, _, rfl, by decide⟩
theorem wit_CommandsChangeOnlyTheirSlots : ∃ t, exec (.setseg 3 0 false) doomed = .next t := ⟨_, rfl⟩
theorem wit_SlotWriteTwiceIsSlotWriteOnce : logged.chip.display.wf := by decide
theorem wit_CanonicalMemoriesThatReadAlikeAreEqual :
    Memory.wf logged.chip.display ∧ ∀ a, logged.chip.display.read a = logged.chip.display.read a :=
  ⟨by decide, fun _ => rfl⟩

end Sys2Proof.Tests
end

section
/-! PROOFS. The segment code (R60, R61, R64): a bit of a code is read by the mask with that bit alone. -/

namespace Sys2Proof.Machine

/-- The mask of one bit meets a code in that bit or in nothing, so it is nonzero exactly when the bit is set. -/
theorem lights_eq_mask (code : Byte) (x : Segment) :
    lights code x = decide (code &&& BitVec.twoPow 8 x.bit ≠ 0) := by
  have mask_ne_zero : BitVec.twoPow 8 x.bit ≠ 0 := by cases x <;> decide
  rw [lights, BitVec.and_twoPow]
  cases code.getLsbD x.bit with
  | false => simp
  | true => simpa using mask_ne_zero

theorem lights_dash (x : Segment) : lights dash x = true ↔ x = .g := by cases x <;> decide

@[simp] theorem lights_blank (x : Segment) : lights blank x = false := BitVec.getLsbD_zero

/-- Settles O38: each mask of R60 is the power of two of its segment's bit. -/
theorem segmentCodeBitsLightTheirSegments : Obligations.SegmentCodeBitsLightTheirSegments := by
  refine ⟨fun code => ?_, fun x => ⟨lights_dash x, lights_blank x⟩⟩
  exact ⟨lights_eq_mask code .a, lights_eq_mask code .b, lights_eq_mask code .c, lights_eq_mask code .d,
    lights_eq_mask code .e, lights_eq_mask code .f, lights_eq_mask code .g, lights_eq_mask code .point⟩

end Sys2Proof.Machine
end

section
/-! PROOFS. The primitives: one slot's flush (R92, R93), the leftward walk (R95), the segment encoding (R90). -/

namespace Sys2Proof.Machine

/-- `FlushSlot` on an answered write is one event and no change of the slots (R93). -/
theorem State.flushSlot_of_answered {s : State} (i : Fin 5) (h : s.answered 1) :
    s.flushSlot i =
      s.after s.slots [.slotWrite s.config.busAddr (regOff i) (loByte s.slots[i]) (hiByte s.slots[i])] :=
  State.busWrite_of_answered _ h

/-- Settles O35: the flush rule with `Off`, the low byte and the high byte written out. -/
theorem flushSlotSendsTheSlotAtTwiceItsIndex : Obligations.FlushSlotSendsTheSlotAtTwiceItsIndex :=
  ⟨fun _ => rfl, fun _ i h => State.flushSlot_of_answered i h⟩

/-- Only the step from 3 lands on the colon and goes past it. -/
theorem prevPos_of_ne {p : Int} (h : p ≠ 3) : prevPos p = p - 1 := if_neg (by omega)

/-- `Prev` goes from `Phys(l + 1)` to `Phys(l)`: over the colon for `l = 1`, else to the neighbouring slot. -/
theorem prevPos_phys {k l : Fin 4} (h : k.val = l.val + 1) : prevPos (phys k).val = (phys l).val := by
  by_cases hl : l.val = 1
  · obtain rfl : l = 1 := Fin.ext hl
    obtain rfl : k = 2 := Fin.ext h
    rfl
  · have not_past_colon : (phys k).val ≠ 3 := by rw [phys_val]; split <;> omega
    have neighbour : (phys k).val = (phys l).val + 1 := by rw [phys_val, phys_val]; split_ifs <;> omega
    rw [prevPos_of_ne (by omega), neighbour]
    omega

/-- Settles O36: 3 is the one position whose left neighbour is the colon. -/
theorem prevWalksTheDigitSlotsLeftward : Obligations.PrevWalksTheDigitSlotsLeftward :=
  ⟨fun _ => rfl, prevPos_of_ne (by decide), rfl, prevPos_of_ne (by decide), prevPos_of_ne (by decide),
    fun p hp => prevPos_of_ne (by omega), rfl, fun k l h => prevPos_phys h⟩

theorem segEnc_eq (c : Config) (d : Fin 16) (dot : Bool) :
    segEnc c d dot = c.segTab[d].setWidth 8 ||| if dot then 0x80 else 0x00 := by
  rw [segEnc, segCode, dotBit_eq]

/-- Bits 6 to 0 are the table's, with the dot or without it. -/
theorem segEnc_low (c : Config) (d : Fin 16) (dot : Bool) : (segEnc c d dot).extractLsb' 0 7 = c.segTab[d] := by
  have point_low : (if dot then 0x80 else 0x00 : Byte).extractLsb' 0 7 = 0#7 := by cases dot <;> decide
  rw [segEnc_eq, BitVec.extractLsb'_or, point_low, BitVec.or_zero,
    ← BitVec.setWidth_eq_extractLsb' (by decide), BitVec.setWidth_setWidth_of_le _ (by decide), BitVec.setWidth_eq]

/-- Bit 7 is the dot: the table's codes leave it clear. -/
theorem segEnc_point (c : Config) (d : Fin 16) (dot : Bool) : (segEnc c d dot).getLsbD 7 = dot := by
  rw [segEnc, BitVec.getLsbD_or, segCode_point, dotBit_eq]
  cases dot <;> rfl

/-- Settles O37: the dot's mask meets the table's code in no bit. -/
theorem segEncAddsOnlyThePoint : Obligations.SegEncAddsOnlyThePoint := by
  refine fun c d => ⟨?_, segEnc_point c d true, segEnc_low c d true, segEnc_eq c d⟩
  simpa using segEnc_eq c d false

end Sys2Proof.Machine
end

section
/-! PROOFS. The buffer commands CLEAR (R111) and SHOWCOLON (R113): a fill and a full flush, and one slot and its flush. -/

namespace Sys2Proof.Machine

/-- One word in all five slots and a full flush, five writes answered: five words and five events (R94, R111, R131). -/
theorem State.flushAll_fillSlots_of_answered {s : State} (w : Word) (h : s.answered 5) :
    (s.fillSlots w).flushAll =
      s.after (Vector.replicate 5 w) (flushEvents s.config.busAddr (Vector.replicate 5 w)) := by
  rw [State.fillSlots, State.setSlots_of_idle _ h.1, State.flushAll_after (by simpa using h), List.nil_append]

/-- One slot stored and sent alone, the write answered: one word and one event (R93, R113). -/
theorem State.flushSlot_setSlot_of_answered {s : State} (i : Fin 5) (w : Word) (h : s.answered 1) :
    (s.setSlot i w).flushSlot i =
      s.after (s.slots.set i w) [.slotWrite s.config.busAddr (regOff i) (loByte w) (hiByte w)] := by
  rw [State.setSlot, State.setSlots_of_idle _ h.1, State.flushSlot_after _ (by simpa using h)]
  simp

theorem exec_clear (s : State) : exec .clear s = .next (s.fillSlots (zext16 blank)).flushAll := rfl

theorem exec_showcolon (on : Bool) (s : State) :
    exec (.showcolon on) s =
      .next ((s.setSlot colonIdx (zext16 (if on then colonOn else blank))).flushSlot colonIdx) := rfl

/-- Settles O14: the word CLEAR fills the slots with is 0, and so are both bytes each of its five events carries. -/
theorem clearZeroesAndFlushesAllSlots : Obligations.ClearZeroesAndFlushesAllSlots := by
  refine ⟨rfl, fun s h => ⟨?_, rfl⟩⟩
  rw [exec_clear, State.flushAll_fillSlots_of_answered _ h]
  rfl

/-- Settles O16: the word stored is `show ? 0x0002 : 0` whatever the old one, and its bytes are those of the one event
at the colon's offset. -/
theorem showColonReplacesTheColonWord : Obligations.ShowColonReplacesTheColonWord := by
  refine ⟨rfl, rfl, fun s on h => ⟨?_, rfl⟩⟩
  rw [exec_showcolon, State.flushSlot_setSlot_of_answered _ _ h, loByte_zext16, hiByte_zext16]
  cases on <;> rfl

end Sys2Proof.Machine
end

section
/-! PROOFS. The shedding loop (R134): it searches downward from `frac`, so it is `finalF`, the count R136 names. -/

namespace Sys2Proof.Machine

/-- The shedding loop over the integers ends with the largest count that fits over the rationals (R134, R136). -/
theorem shed_eq_finalF (V : ValueField) (b frac : Nat) :
    shed (magnitude V) b (limitOf b (isNeg V)) frac = finalF (valueOf V) b frac := by
  induction frac with
  | zero => rfl
  | succ F ih => simp only [shed, finalF, Nat.findGreatest_succ, fitsAt_iff, ih]

theorem finalF_le (v : ℚ) (b frac : Nat) : finalF v b frac ≤ frac := Nat.findGreatest_le _

/-- A count up to `frac` that fits: the final one fits too, and is no smaller. -/
theorem finalF_greatest {v : ℚ} {b frac G : Nat} (hG : G ≤ frac) (h : fitsAt v b G) :
    fitsAt v b (finalF v b frac) ∧ G ≤ finalF v b frac :=
  ⟨Nat.findGreatest_spec (P := fun F => fitsAt v b F) hG h, Nat.le_findGreatest hG h⟩

theorem finalF_eq_zero {v : ℚ} {b frac : Nat} (h : ∀ G ≤ frac, ¬ fitsAt v b G) : finalF v b frac = 0 :=
  Nat.findGreatest_eq_zero_iff.mpr fun G _ hG => h G hG

/-- `sv = a*base^F + 1/2` never increases as digits are shed (R134). -/
theorem sv_mono (v : ℚ) (base : Base) {G H : Nat} (h : G ≤ H) :
    |v| * (base.radix : ℚ) ^ G + 1 / 2 ≤ |v| * (base.radix : ℚ) ^ H + 1 / 2 := by
  have radix_ge_one : (1 : ℚ) ≤ base.radix := by exact_mod_cast (radix_pos base).trans' one_le_two
  gcongr

/-- Settles O28: the loop is the search `finalF`, and the facts are those of the search. -/
theorem sheddingEndsAtTheLargestCountThatFits : Obligations.SheddingEndsAtTheLargestCountThatFits := by
  intro V base frac F hF
  obtain rfl : F = finalF (valueOf V) base.radix frac := hF.trans (shed_eq_finalF V base.radix frac)
  exact ⟨finalF_le _ _ _, fun _ _ => sv_mono _ base, fun _ => finalF_greatest, finalF_eq_zero⟩

end Sys2Proof.Machine
end

section
/-! PROOFS. The commands SHOWNUM (R130) and SHOWERR (R150): the three ways a SHOWNUM can go, and the error pattern. -/

namespace Sys2Proof.Machine

theorem exec_showerr (s : State) : exec .showerr s = .next s.errorPattern := rfl

theorem exec_shownum (V : ValueField) (base : Base) (frac : BitVec 3) (s : State) :
    exec (.shownum V base frac) s = .next (showNum V base frac s).2 := rfl

theorem labelOf_shownum (V : ValueField) (base : Base) (frac : BitVec 3) (s : State) :
    labelOf (.shownum V base frac) s = (showNum V base frac s).1 := rfl

/-- All a SHOWNUM can do, by its two tests: `frac` is reserved; the value fits at the final `F`, and is rendered; it does
not fit, and the error pattern is shown. -/
theorem showNum_cases (V : ValueField) (base : Base) (frac : BitVec 3) (s : State) :
    let F := finalF (valueOf V) base.radix frac.toNat
    (4 < frac.toNat ∧ showNum V base frac s = (.ignored, s)) ∨
    (frac.toNat ≤ 4 ∧ fitsAt (valueOf V) base.radix F ∧
      showNum V base frac s =
        (.done, (s.setSlots (renderSlots s.config base.radix (isNeg V) F
          (printedInt (magnitude V) base.radix F))).flushAll)) ∨
    (frac.toNat ≤ 4 ∧ ¬ fitsAt (valueOf V) base.radix F ∧ showNum V base frac s = (.overflow, s.errorPattern)) := by
  simp only [showNum, shed_eq_finalF, fitsAt_iff]
  by_cases reserved : 4 < frac.toNat
  · exact .inl ⟨reserved, if_pos reserved⟩
  · rw [if_neg reserved]
    have admitted := not_lt.mp reserved
    split
    · next fits => exact .inr (.inl ⟨admitted, fits, rfl⟩)
    · next overflows => exact .inr (.inr ⟨admitted, overflows, rfl⟩)

/-- Only the error pattern is labelled Overflow. -/
theorem showNum_of_overflow {V : ValueField} {base : Base} {frac : BitVec 3} {s : State}
    (h : (showNum V base frac s).1 = .overflow) : (showNum V base frac s).2 = s.errorPattern := by
  rcases showNum_cases V base frac s with ⟨-, e⟩ | ⟨-, -, e⟩ | ⟨-, -, e⟩
  · rw [e] at h; cases h
  · rw [e] at h; cases h
  · rw [e]

/-- Settles O23: both commands are the procedure ErrorPattern. -/
theorem showErrShowsTheErrorPattern : Obligations.ShowErrShowsTheErrorPattern := by
  refine ⟨rfl, fun s answered => ⟨?_, rfl⟩, fun s V base frac overflow => ?_⟩
  · rw [exec_showerr, State.errorPattern_of_answered answered]
    rfl
  · rw [exec_shownum, exec_showerr, showNum_of_overflow overflow]

end Sys2Proof.Machine
end

section
/-! PROOFS. The colon slot under a render (R145): the position walks leftward past the colon (R95), so no write of the
render lands there. -/

namespace Sys2Proof.Machine

/-! ## A flush changes no slot -/

@[simp] theorem State.flushSlot_slots (i : Fin 5) (s : State) : (s.flushSlot i).slots = s.slots :=
  State.busWrite_slots _ _

@[simp] theorem State.flushAll_slots (s : State) : s.flushAll.slots = s.slots := by
  simp [State.flushAll, physIndices]

theorem State.errorPattern_slots_of_idle {s : State} (h : s.busy = false) :
    s.errorPattern.slots = Vector.replicate 5 (zext16 dash) := by
  rw [State.errorPattern, State.flushAll_slots, State.fillSlots, State.setSlots_of_idle _ h, State.after_slots]

/-! ## The render's walk -/

theorem prevPos_ne_colon (p : Int) : prevPos p ≠ 2 := by
  rw [prevPos]
  split <;> omega

theorem writePos_colon {p : Int} (w : Word) (sl : Slots) (hp : p ≠ 2) : (writePos p w sl)[2] = sl[2] := by
  rw [writePos]
  split
  · exact Vector.getElem_setIfInBounds_ne _ (by omega)
  · rfl

/-- The digit loop ends, as it began, off the colon, and has not written it. -/
theorem emitDigits_colon (c : Config) (b F fuel n i : Nat) {p : Int} (sl : Slots) (hp : p ≠ 2) :
    (emitDigits c b F fuel n p i sl).1 ≠ 2 ∧ (emitDigits c b F fuel n p i sl).2[2] = sl[2] := by
  induction fuel generalizing n p i sl with
  | zero => exact ⟨hp, rfl⟩
  | succ fuel ih =>
    simp only [emitDigits]
    split
    · obtain ⟨off, kept⟩ := ih (n / b) (i + 1) (writePos p _ sl) (prevPos_ne_colon p)
      exact ⟨off, kept.trans (writePos_colon _ sl hp)⟩
    · exact ⟨prevPos_ne_colon p, writePos_colon _ sl hp⟩

theorem emitSign_colon (neg : Bool) {p : Int} (sl : Slots) (hp : p ≠ 2) :
    (emitSign neg p sl).1 ≠ 2 ∧ (emitSign neg p sl).2[2] = sl[2] := by
  cases neg
  · exact ⟨hp, rfl⟩
  · exact ⟨prevPos_ne_colon p, writePos_colon _ sl hp⟩

theorem clearLeading_colon (fuel : Nat) {p : Int} (sl : Slots) (hp : p ≠ 2) : (clearLeading fuel p sl)[2] = sl[2] := by
  induction fuel generalizing p sl with
  | zero => rfl
  | succ fuel ih =>
    rw [clearLeading]
    split
    · exact (ih _ (prevPos_ne_colon p)).trans (writePos_colon _ sl hp)
    · rfl

theorem renderSlots_colon (c : Config) (b : Nat) (neg : Bool) (F n : Nat) (sl : Slots) :
    (renderSlots c b neg F n sl)[2] = sl[2] := by
  obtain ⟨digits_off, digits_kept⟩ := emitDigits_colon c b F 5 n 0 sl (show (4 : Int) ≠ 2 by decide)
  obtain ⟨sign_off, sign_kept⟩ := emitSign_colon neg (emitDigits c b F 5 n 4 0 sl).2 digits_off
  exact (clearLeading_colon 3 _ sign_off).trans (sign_kept.trans digits_kept)

/-- Settles O31: a render keeps the colon slot, on a busy block too; the error pattern fills it. -/
theorem renderKeepsTheColonSlot : Obligations.RenderKeepsTheColonSlot := by
  rintro s t V base frac ⟨⟩
  refine ⟨fun done => ?_, fun overflow idle => ?_⟩
  · rw [labelOf_shownum] at done
    rcases showNum_cases V base frac s with ⟨-, e⟩ | ⟨-, -, e⟩ | ⟨-, -, e⟩
    · rw [e]
    · simp only [e, State.flushAll_slots, State.setSlots_slots]
      split
      · rfl
      · exact renderSlots_colon ..
    · rw [e] at done; cases done
  · simp only [showNum_of_overflow overflow, State.errorPattern_slots_of_idle idle]
    rfl

end Sys2Proof.Machine
end

section
/-! PROOFS. The direct digit command SHOWDIGIT (R160 to R162): its word field by field, and its two checks. -/

namespace Sys2Proof

/-! ## Fields side by side in one word -/

theorem ofNat_shiftLeft (w a i : Nat) : BitVec.ofNat w (a <<< i) = BitVec.ofNat w a <<< i :=
  BitVec.eq_of_toNat_eq (by simp [Nat.shiftLeft_eq])

/-- A field at bit `i`, above a rest that stays below it, is added as it is or-ed: no bit is common to both. -/
theorem ofNat_field_add {w i r : Nat} (a : Nat) (hr : r < 2 ^ i) :
    BitVec.ofNat w (a * 2 ^ i + r) = BitVec.ofNat w a <<< i ||| BitVec.ofNat w r := by
  rw [← Nat.shiftLeft_eq, Nat.shiftLeft_add_eq_or_of_lt hr, BitVec.ofNat_or, ofNat_shiftLeft]

theorem ofNat_toNat_flag (b : Bool) : BitVec.ofNat 64 b.toNat = flagWord b := by cases b <;> rfl

/-- SHOWDIGIT's word in numbers (R68, R160): `idx` at bit 48, `dot` at bit 40, `val` at bit 0. -/
theorem encode_showdigit (idx : Byte) (val : BitVec 16) (dot : Bool) :
    encode (.showdigit idx val dot) =
      0x0600000000000000#64 ||| BitVec.ofNat 64 (idx.toNat * 2 ^ 48 + dot.toNat * 2 ^ 40 + val.toNat) := by
  have val_below_dot : val.toNat < 2 ^ 40 := by omega
  have dot_below_idx : dot.toNat * 2 ^ 40 + val.toNat < 2 ^ 48 := by have := dot.toNat_le; omega
  rw [Nat.add_assoc, ofNat_field_add _ dot_below_idx, ofNat_field_add _ val_below_dot, ofNat_toNat_flag,
    BitVec.ofNat_toNat, BitVec.ofNat_toNat, encode, BitVec.or_assoc, BitVec.or_assoc]

namespace Machine

/-! ## The command -/

theorem exec_showdigit (idx : Byte) (val : BitVec 16) (dot : Bool) (s : State) :
    exec (.showdigit idx val dot) s = .next (showDigit idx val dot s).2 := rfl

theorem labelOf_showdigit (idx : Byte) (val : BitVec 16) (dot : Bool) (s : State) :
    labelOf (.showdigit idx val dot) s = (showDigit idx val dot s).1 := rfl

/-- Both checks passed: the digit's code goes to its position (R160). -/
theorem showDigit_of_valid {idx : Byte} {val : BitVec 16} (hi : idx.toNat < 4) (hv : val.toNat < 16) (dot : Bool)
    (s : State) :
    showDigit idx val dot s = (.done, s.writeDigit ⟨idx.toNat, hi⟩ (segCode s.config ⟨val.toNat, hv⟩) dot) := by
  rw [showDigit, dif_pos hi, dif_pos hv]

/-- Either check failed: the command is ignored whole (R162). -/
theorem showDigit_of_invalid {idx : Byte} {val : BitVec 16} (h : 4 ≤ idx.toNat ∨ 16 ≤ val.toNat) (dot : Bool)
    (s : State) : showDigit idx val dot s = (.ignored, s) := by
  rw [showDigit]
  split
  · next hi => exact dif_neg (by omega)
  · rfl

/-- Settles O18: the word is its fields side by side; the stored byte is the `SegEnc` of the digit, and its slot the
`Phys` of the index. -/
theorem showDigitStoresTheEncodedDigit : Obligations.ShowDigitStoresTheEncodedDigit := by
  refine fun s idx val dot => ⟨encode_showdigit idx val dot, fun hi hv answered i i_val e e_eq => ?_, fun invalid => ?_⟩
  · obtain rfl : i = phys ⟨idx.toNat, hi⟩ := Fin.ext i_val
    obtain rfl : e = segEnc s.config ⟨val.toNat, hv⟩ dot := e_eq.trans (segEnc_eq s.config ⟨val.toNat, hv⟩ dot).symm
    rw [exec_showdigit, labelOf_showdigit, showDigit_of_valid hi hv]
    exact ⟨congrArg _ (State.writeDigit_of_answered _ _ dot answered), rfl⟩
  · rw [exec_showdigit, labelOf_showdigit, showDigit_of_invalid invalid]
    exact ⟨rfl, rfl⟩

end Machine

end Sys2Proof
end

section
/-! PROOFS. The chip control command SETBRIGHT (R172): one command byte, with the level in its low four bits. -/

namespace Sys2Proof.Machine

/-- One command byte sent alone, the write answered: one event and no slot (R96). -/
theorem State.cmdByte_of_answered {s : State} (c : Byte) (h : s.answered 1) :
    s.cmdByte c = s.after s.slots [.cmdWrite s.config.busAddr c] :=
  State.busWrite_of_answered _ h

/-- The brightness byte in numbers (R81): the opcode nibble is above all four bits of the level. -/
theorem brightByte_eq_add (level : BitVec 4) : brightByte level = BitVec.ofNat 8 (0xE0 + level.toNat) := by
  have opcode_above_level : BitVec.ofNat 8 (0xE * 2 ^ 4 + level.toNat) =
      BitVec.ofNat 8 0xE <<< 4 ||| BitVec.ofNat 8 level.toNat := ofNat_field_add 0xE level.isLt
  rw [BitVec.ofNat_toNat] at opcode_above_level
  exact opcode_above_level.symm

theorem encode_setbright (level : BitVec 4) :
    encode (.setbright level) = 0x0400000000000000#64 ||| BitVec.ofNat 64 level.toNat := by
  rw [BitVec.ofNat_toNat, encode]

theorem exec_setbright (level : BitVec 4) (s : State) :
    exec (.setbright level) s = .next (s.cmdByte (brightByte level)) := rfl

/-- Settles O22: the command is one `CmdByte`, and its byte is the opcode nibble plus the level. -/
theorem setBrightSendsTheBrightnessByte : Obligations.SetBrightSendsTheBrightnessByte := by
  refine fun s level => ⟨encode_setbright level, fun answered => ⟨?_, rfl⟩⟩
  rw [exec_setbright, State.cmdByte_of_answered _ answered, brightByte_eq_add]

end Sys2Proof.Machine
end

section
/-! PROOFS. The error classes: the input-range errors of SHOWDIGIT and SETSEG (R191), and render overflow (R192), which
happens exactly when the value does not fit even with no fractional digit. -/

namespace Sys2Proof.Machine

/-! ## Input-range errors -/

theorem exec_setseg (idx code : Byte) (dot : Bool) (s : State) :
    exec (.setseg idx code dot) s = .next (setSeg idx code dot s).2 := rfl

theorem labelOf_setseg (idx code : Byte) (dot : Bool) (s : State) :
    labelOf (.setseg idx code dot) s = (setSeg idx code dot s).1 := rfl

/-- The index check passed: the raw code goes to its position (R112). -/
theorem setSeg_of_valid {idx : Byte} (h : idx.toNat < 4) (code : Byte) (dot : Bool) (s : State) :
    setSeg idx code dot s = (.done, s.writeDigit ⟨idx.toNat, h⟩ code dot) := dif_pos h

/-- The index check failed: the command is ignored whole (R112). -/
theorem setSeg_of_invalid {idx : Byte} (h : 4 ≤ idx.toNat) (code : Byte) (dot : Bool) (s : State) :
    setSeg idx code dot s = (.ignored, s) := dif_neg (not_lt.mpr h)

theorem labelOf_setseg_eq_ignored_iff (idx code : Byte) (dot : Bool) (s : State) :
    labelOf (.setseg idx code dot) s = .ignored ↔ 4 ≤ idx.toNat := by
  rw [labelOf_setseg]
  by_cases invalid : 4 ≤ idx.toNat
  · simp [setSeg_of_invalid invalid, invalid]
  · simp [setSeg_of_valid (not_le.mp invalid), invalid]

theorem labelOf_showdigit_eq_ignored_iff (idx : Byte) (val : BitVec 16) (dot : Bool) (s : State) :
    labelOf (.showdigit idx val dot) s = .ignored ↔ 4 ≤ idx.toNat ∨ 16 ≤ val.toNat := by
  rw [labelOf_showdigit]
  by_cases invalid : 4 ≤ idx.toNat ∨ 16 ≤ val.toNat
  · simp [showDigit_of_invalid invalid, invalid]
  · obtain ⟨hi, hv⟩ := not_or.mp invalid
    simp [showDigit_of_valid (not_le.mp hi) (not_le.mp hv), hi, hv]

/-- Settles O19: the label names the operands that fail a check, and on those the command answers the state it got. -/
theorem inputRangeErrorsAreNoOps : Obligations.InputRangeErrorsAreNoOps := by
  refine ⟨fun s idx val dot => ?_, fun s idx code dot => ?_⟩
  · rw [labelOf_showdigit_eq_ignored_iff]
    refine ⟨Iff.rfl, fun invalid => ?_⟩
    rw [exec_showdigit, showDigit_of_invalid invalid]
  · rw [labelOf_setseg_eq_ignored_iff]
    refine ⟨Iff.rfl, fun invalid => ?_⟩
    rw [exec_setseg, setSeg_of_invalid invalid]

/-! ## Render overflow -/

/-- Shedding reaches a count that fits exactly when no fractional digit at all would fit: zero digits are the easiest to
fit, and the search goes down to them (R134). -/
theorem fitsAt_finalF_iff (v : ℚ) (base : Base) (frac : Nat) :
    fitsAt v base.radix (finalF v base.radix frac) ↔ fitsAt v base.radix 0 :=
  ⟨fun fits => (sv_mono v base (Nat.zero_le _)).trans_lt fits,
    fun fits => (finalF_greatest (Nat.zero_le frac) fits).1⟩

/-- Overflow is a value that no shedding makes fit, under an admitted `frac` (R192, R193). -/
theorem labelOf_shownum_eq_overflow_iff (V : ValueField) (base : Base) (frac : BitVec 3) (s : State) :
    labelOf (.shownum V base frac) s = .overflow ↔ frac.toNat ≤ 4 ∧ ¬ fitsAt (valueOf V) base.radix 0 := by
  rw [labelOf_shownum, ← fitsAt_finalF_iff (valueOf V) base frac.toNat]
  rcases showNum_cases V base frac s with ⟨reserved, e⟩ | ⟨-, fits, e⟩ | ⟨admitted, overflows, e⟩ <;> rw [e]
  · exact iff_of_false nofun fun h => absurd h.1 (not_le.mpr reserved)
  · exact iff_of_false nofun fun h => h.2 fits
  · exact iff_of_true rfl ⟨admitted, overflows⟩

/-- Not to fit with no fractional digit is `|v| + 1/2 >= base^avail` (R192). -/
theorem not_fitsAt_zero_iff (v : ℚ) (b : Nat) :
    ¬ fitsAt v b 0 ↔ (b : ℚ) ^ (if v < 0 then 3 else 4) ≤ |v| + 1 / 2 := by
  rw [fitsAt, pow_zero, mul_one, not_lt]

/-- Settles O25: the label names the values that no shedding makes fit, and their effect is the error pattern. -/
theorem overflowShowsTheErrorPattern : Obligations.OverflowShowsTheErrorPattern := by
  refine fun s V base frac => ⟨?_, fun overflow answered => ?_⟩
  · rw [labelOf_shownum_eq_overflow_iff, not_fitsAt_zero_iff]
  · rw [exec_shownum, showNum_of_overflow overflow, State.errorPattern_of_answered answered]
    rfl

end Sys2Proof.Machine
end

section
/-! PROOFS. The reset state (R220): one fact about all five slots, and the empty log. -/

namespace Sys2Proof.Machine

theorem State.resetWith_slot (c : Config) (d k : Nat → Byte) (i : Nat) (h : i < 5) :
    (State.resetWith c d k).slots[i] = 0x0000 := by
  simp only [State.resetWith_slots, Vector.getElem_replicate]

/-- Settles O12: the five slots are the instances of one fact about every slot of the reset state. -/
theorem resetStateIsZeroedAndSilent : Obligations.ResetStateIsZeroedAndSilent := by
  rintro c d k _ rfl
  have slot_zero := State.resetWith_slot c d k
  exact ⟨slot_zero 0 (by decide), slot_zero 1 (by decide), slot_zero 2 (by decide), slot_zero 3 (by decide),
    slot_zero 4 (by decide), State.resetWith_busLog c d k⟩

end Sys2Proof.Machine
end

section
/-! PROOFS. Decoder and encoder (R66 to R76): a word belongs to a row of the opcode table exactly when it has the row's
bits in the fields the row fixes; the decoder tests these fields, and reads the operands off the others. -/

namespace Sys2Proof

/-! ## Equal fields, equal bits -/

theorem CmdWord.field_eq_of_bits {w p : CmdWord} {hi lo : Nat}
    (h : ∀ j, lo ≤ j → j ≤ hi → w.getLsbD j = p.getLsbD j) : w.field hi lo = p.field hi lo := by
  have : w.extractLsb' lo (hi + 1 - lo) = p.extractLsb' lo (hi + 1 - lo) :=
    BitVec.eq_of_getLsbD_eq fun i hi => by simp [hi, h (lo + i) (by omega) (by omega)]
  rw [CmdWord.field, CmdWord.field, this]

theorem CmdWord.bit_eq_of_field_eq {w p : CmdWord} {hi lo j : Nat} (h : w.field hi lo = p.field hi lo) (h1 : lo ≤ j)
    (h2 : j ≤ hi) : w.getLsbD j = p.getLsbD j :=
  (CmdWord.bit_of_field h h1 h2).trans (CmdWord.bit_of_field rfl h1 h2).symm

/-- The bits of an operand field, read from two words as the same operand. -/
theorem CmdWord.bit_eq_of_extract_eq {w w' : CmdWord} {lo n j : Nat} (h : w.extractLsb' lo n = w'.extractLsb' lo n)
    (h1 : lo ≤ j) (h2 : j < lo + n) : w.getLsbD j = w'.getLsbD j := by
  have hbit := congrArg (·.getLsbD (j - lo)) h
  simpa [show j - lo < n by omega, show lo + (j - lo) = j by omega] using hbit

/-! ## Rows -/

/-- The fields `(hi, lo)` of a command's format that do not belong to an operand: the opcode and the must-be-zero bits
(R66 to R70). -/
def Instr.fixedFields : Instr → List (Nat × Nat)
  | .init => [(63, 56), (55, 0)]
  | .clear => [(63, 56), (55, 0)]
  | .setblink _ => [(63, 56), (55, 2)]
  | .setbright _ => [(63, 56), (55, 4)]
  | .showcolon _ => [(63, 56), (55, 1)]
  | .showdigit _ _ _ => [(63, 56), (47, 41), (39, 16)]
  | .shownum _ _ _ => [(63, 56), (53, 51), (47, 40)]
  | .showerr => [(63, 56), (55, 0)]
  | .setseg _ _ _ => [(63, 56), (47, 41), (39, 8)]
  | .flushall => [(63, 56), (55, 0)]

/-- The mask of a row is 1 exactly in the fixed fields. -/
theorem mask_bit_iff (i : Instr) : ∀ j < 64,
    (i.row.mask.getLsbD j = true ↔ ∃ f ∈ i.fixedFields, f.2 ≤ j ∧ j ≤ f.1) := by
  cases i <;> simp only [Instr.row, Instr.fixedFields] <;> decide

theorem pattern_inside_mask (i : Instr) : ∀ j < 64, i.row.mask.getLsbD j = false → i.row.pattern.getLsbD j = false := by
  cases i <;> simp only [Instr.row] <;> decide

/-- A word matches a row exactly when it has the row's fixed fields (R72). -/
theorem hits_iff_fields (i : Instr) (w : CmdWord) :
    i.row.hits w = true ↔ ∀ f ∈ i.fixedFields, w.field f.1 f.2 = i.row.pattern.field f.1 f.2 := by
  constructor
  · intro h f hf
    refine CmdWord.field_eq_of_bits fun j h1 h2 => ?_
    by_cases hj : j < 64
    · exact Row.bit_of_hits h ((mask_bit_iff i j hj).mpr ⟨f, hf, h1, h2⟩)
    · rw [BitVec.getLsbD_of_ge _ _ (not_lt.mp hj), BitVec.getLsbD_of_ge _ _ (not_lt.mp hj)]
  · intro h
    refine Laws.TableRow.of_bits fun j hj => ?_
    cases hm : i.row.mask.getLsbD j with
    | false => rw [Bool.and_false, pattern_inside_mask i j hj hm]
    | true =>
      obtain ⟨f, hf, h1, h2⟩ := (mask_bit_iff i j hj).mp hm
      rw [Bool.and_true, CmdWord.bit_eq_of_field_eq (h f hf) h1 h2]

theorem encode_hits (i : Instr) : i.row.hits (encode i) = true := by
  cases i with
  | init => exact Laws.TableRow.init
  | clear => exact Laws.TableRow.clear
  | setblink rate => exact Laws.TableRow.setblink rate
  | setbright level => exact Laws.TableRow.setbright level
  | showcolon on => exact Laws.TableRow.showcolon on
  | showdigit idx val dot => exact Laws.TableRow.showdigit idx val dot
  | shownum V base frac => exact Laws.TableRow.shownum V base frac
  | showerr => exact Laws.TableRow.showerr
  | setseg idx code dot => exact Laws.TableRow.setseg idx code dot
  | flushall => exact Laws.TableRow.flushall

/-! ## Operands -/

/-- The command of the same kind with the operands that stand in a word (R67 to R69, R71). -/
def Instr.readFrom (w : CmdWord) : Instr → Instr
  | .init => .init
  | .clear => .clear
  | .setblink _ => .setblink (w.extractLsb' 0 2)
  | .setbright _ => .setbright (w.extractLsb' 0 4)
  | .showcolon _ => .showcolon (w.getLsbD 0)
  | .showdigit _ _ _ => .showdigit (w.extractLsb' 48 8) (w.extractLsb' 0 16) (w.getLsbD 40)
  | .shownum _ _ _ => .shownum (w.extractLsb' 0 40) (baseOfSel (w.field 55 54)) (w.extractLsb' 48 3)
  | .showerr => .showerr
  | .setseg _ _ _ => .setseg (w.extractLsb' 48 8) (w.extractLsb' 0 8) (w.getLsbD 40)
  | .flushall => .flushall

/-- The decoder on a word of a row: the row's command, with the word's operands. -/
theorem decode_of_hits {i : Instr} {w : CmdWord} (h : i.row.hits w = true) : decode w = .ok (i.readFrom w) := by
  have fields := (hits_iff_fields i w).mp h
  cases i
  all_goals
    simp [Instr.fixedFields, Instr.row, CmdWord.field] at fields
    simp [decode, Instr.readFrom, CmdWord.field, fields]

/-- Whatever decodes to a command has the fields that the command's row fixes: the decoder has tested them all. -/
theorem hits_of_decode {i : Instr} {w : CmdWord} (h : decode w = .ok i) : i.row.hits w = true := by
  rw [hits_iff_fields]
  simp only [decode] at h
  split at h
  case h_11 => cases h
  all_goals
    split at h
    · next opcode zeros =>
      cases h
      simp [Instr.fixedFields, opcode, zeros, Instr.row]
      decide
    · cases h

/-- The decoder answers a command exactly on the words of its row that carry its operands. -/
theorem decode_eq_ok_iff {w : CmdWord} {i : Instr} : decode w = .ok i ↔ i.row.hits w = true ∧ i.readFrom w = i := by
  constructor
  · intro h
    have hits := hits_of_decode h
    exact ⟨hits, Except.ok.inj ((decode_of_hits hits).symm.trans h)⟩
  · rintro ⟨hits, operands⟩
    rw [decode_of_hits hits, operands]

/-- The encoder puts each operand where the decoder reads it. -/
theorem readFrom_encode (i : Instr) : i.readFrom (encode i) = i := by
  cases i with
  | init | clear | showerr | flushall => rfl
  | setblink rate => revert rate; decide
  | setbright level => revert level; decide
  | showcolon on => revert on; decide
  | showdigit idx val dot =>
    simp only [Instr.readFrom, encode, flagWord, Instr.showdigit.injEq]
    refine ⟨BitVec.eq_of_getLsbD_eq fun j hj => ?_, BitVec.eq_of_getLsbD_eq fun j hj => ?_, ?_⟩
    · interval_cases j <;> simp
    · interval_cases j <;> simp
    · simp
  | shownum V base frac =>
    simp only [Instr.readFrom, encode, Instr.shownum.injEq]
    have selector : (0x0700000000000000#64 ||| base.sel.setWidth 64 <<< 54 ||| frac.setWidth 64 <<< 48 |||
        V.setWidth 64).extractLsb' 54 2 = base.sel :=
      BitVec.eq_of_getLsbD_eq fun j hj => by interval_cases j <;> simp
    refine ⟨BitVec.eq_of_getLsbD_eq fun j hj => ?_, ?_, BitVec.eq_of_getLsbD_eq fun j hj => ?_⟩
    · interval_cases j <;> simp
    · rw [CmdWord.field, selector, baseOfSel_sel]
    · interval_cases j <;> simp
  | setseg idx code dot =>
    simp only [Instr.readFrom, encode, flagWord, Instr.setseg.injEq]
    refine ⟨BitVec.eq_of_getLsbD_eq fun j hj => ?_, BitVec.eq_of_getLsbD_eq fun j hj => ?_, ?_⟩
    · interval_cases j <;> simp
    · interval_cases j <;> simp
    · simp

/-- Bit `j` belongs to an operand of the command (R67 to R69). -/
def Instr.hasOperandBit (j : Nat) : Instr → Prop
  | .init | .clear | .showerr | .flushall => False
  | .setblink _ => j < 2
  | .setbright _ => j < 4
  | .showcolon _ => j = 0
  | .showdigit _ _ _ => j < 16 ∨ j = 40 ∨ 48 ≤ j ∧ j < 56
  | .shownum _ _ _ => j < 40 ∨ 48 ≤ j ∧ j < 51 ∨ 54 ≤ j ∧ j < 56
  | .setseg _ _ _ => j < 8 ∨ j = 40 ∨ 48 ≤ j ∧ j < 56

/-- The mask of a row is 0 only in the operand fields. -/
theorem hasOperandBit_of_mask_false (i : Instr) : ∀ j < 64, i.row.mask.getLsbD j = false → i.hasOperandBit j := by
  cases i <;> simp only [Instr.row, Instr.hasOperandBit] <;> decide

/-- Two words with the same operands agree in every bit that the row leaves free: each such bit is an operand's. -/
theorem bit_eq_of_readFrom_eq {i : Instr} {w w' : CmdWord} (h : i.readFrom w = i.readFrom w') {j : Nat} (hj : j < 64)
    (free : i.row.mask.getLsbD j = false) : w.getLsbD j = w'.getLsbD j := by
  have range := hasOperandBit_of_mask_false i j hj free
  cases i with
  | init | clear | showerr | flushall => exact range.elim
  | setblink rate | setbright level =>
    injection h with operand
    exact CmdWord.bit_eq_of_extract_eq operand (Nat.zero_le j) (by simpa [Instr.hasOperandBit] using range)
  | showcolon on =>
    injection h with operand
    exact range ▸ operand
  | showdigit idx val dot | setseg idx code dot =>
    injection h with index value point
    rcases range with hv | rfl | ⟨h1, h2⟩
    · exact CmdWord.bit_eq_of_extract_eq value (Nat.zero_le j) (by simpa using hv)
    · exact point
    · exact CmdWord.bit_eq_of_extract_eq index h1 h2
  | shownum V base frac =>
    injection h with value selector count
    rcases range with hv | ⟨h1, h2⟩ | ⟨h1, h2⟩
    · exact CmdWord.bit_eq_of_extract_eq value (Nat.zero_le j) (by simpa using hv)
    · exact CmdWord.bit_eq_of_extract_eq count h1 h2
    · have field_eq : w.extractLsb' 54 2 = w'.extractLsb' 54 2 := by
        rw [← sel_baseOfSel (w.extractLsb' 54 2), ← sel_baseOfSel (w'.extractLsb' 54 2)]
        exact congrArg Base.sel selector
      exact CmdWord.bit_eq_of_extract_eq field_eq h1 h2

/-- A word is made of what its row fixes and of its operands. -/
theorem eq_of_hits_of_readFrom_eq {i : Instr} {w w' : CmdWord} (hits : i.row.hits w = true)
    (hits' : i.row.hits w' = true) (h : i.readFrom w = i.readFrom w') : w = w' := by
  refine BitVec.eq_of_getLsbD_eq fun j hj => ?_
  cases hm : i.row.mask.getLsbD j with
  | true => rw [Row.bit_of_hits hits hm, Row.bit_of_hits hits' hm]
  | false => exact bit_eq_of_readFrom_eq h hj hm

/-! ## The statements -/

/-- Settles O1: the encoded word is one of its command's row, and the decoder reads its operands back. -/
theorem decodeOfEncodeIsTheCommand : Obligations.DecodeOfEncodeIsTheCommand :=
  fun i => decode_eq_ok_iff.mpr ⟨encode_hits i, readFrom_encode i⟩

/-- Settles O2: the word and the encoding are words of one row with the same operands. -/
theorem decodedWordIsItsEncoding : Obligations.DecodedWordIsItsEncoding := by
  intro w i h
  obtain ⟨hits, operands⟩ := decode_eq_ok_iff.mp h
  exact eq_of_hits_of_readFrom_eq (encode_hits i) hits ((readFrom_encode i).trans operands.symm)

/-- Every row of the table is a command's. -/
theorem exists_row_of_mem {r : Row} (h : r ∈ opcodeTable) : ∃ i : Instr, i.row = r := by
  simp only [opcodeTable, List.mem_cons, List.not_mem_nil, or_false] at h
  rcases h with rfl | rfl | rfl | rfl | rfl | rfl | rfl | rfl | rfl | rfl <;> exact ⟨_, rfl⟩

theorem exists_decode_of_legalWord {w : CmdWord} (h : legalWord w = true) : ∃ i, decode w = .ok i := by
  obtain ⟨r, mem, hits⟩ := List.any_eq_true.mp h
  obtain ⟨i, rfl⟩ := exists_row_of_mem mem
  exact ⟨_, decode_of_hits hits⟩

/-- Settles O3: the decoder and the rows test the same fields. -/
theorem decoderAcceptsExactlyTheTableRows : Obligations.DecoderAcceptsExactlyTheTableRows :=
  ⟨fun _ => exists_decode_of_legalWord, fun _ i h => ⟨row_mem_opcodeTable i, hits_of_decode h⟩⟩

theorem field_opcode_of_hits {r : Row} {w : CmdWord} (mem : r ∈ opcodeTable) (h : r.hits w = true) :
    w.field 63 56 = r.pattern.field 63 56 := by
  obtain ⟨i, rfl⟩ := exists_row_of_mem mem
  exact (hits_iff_fields i w).mp h (63, 56) (by cases i <;> simp [Instr.fixedFields])

/-- The ten rows have ten opcodes (R70). -/
theorem row_eq_of_opcode_eq : ∀ r₁ ∈ opcodeTable, ∀ r₂ ∈ opcodeTable,
    r₁.pattern.field 63 56 = r₂.pattern.field 63 56 → r₁ = r₂ := by decide

/-- Settles O4: both rows fix the opcode, and no two rows have the same. -/
theorem noTwoTableRowsMatchOneWord : Obligations.NoTwoTableRowsMatchOneWord := fun r₁ mem₁ r₂ mem₂ _ hits₁ hits₂ =>
  row_eq_of_opcode_eq r₁ mem₁ r₂ mem₂ ((field_opcode_of_hits mem₁ hits₁).symm.trans (field_opcode_of_hits mem₂ hits₂))

/-- Settles O5, by running the decoder on the seven words. -/
theorem specWordsDecodeToTheirCommands : Obligations.SpecWordsDecodeToTheirCommands := by
  unfold Obligations.SpecWordsDecodeToTheirCommands
  decide

end Sys2Proof
end

section
/-! PROOFS. The assembler form (R76): a line's operands are the operands' numbers, and each number fits its field; and
the value field as a decimal fraction (R71). -/

namespace Sys2Proof

@[simp] theorem baseOfRadix?_radix (b : Base) : baseOfRadix? b.radix = some b := by cases b <;> rfl

@[simp] theorem toNat_flag_beq_one (b : Bool) : (b.toNat == 1) = b := by cases b <;> rfl

/-- Settles O6: the mnemonic selects the command, every operand passes its range check, and its number is read back as
the operand. -/
theorem assembledLineIsTheCommand : Obligations.AssembledLineIsTheCommand := by
  intro i
  cases i with
  | init | clear | showerr | flushall => rfl
  | setblink rate => simp [assemble, disassemble, Instr.row, rate.isLt]
  | setbright level => simp [assemble, disassemble, Instr.row, level.isLt]
  | showcolon on => simp [assemble, disassemble, Instr.row, on.toNat_le]
  | showdigit idx val dot => simp [assemble, disassemble, Instr.row, idx.isLt, val.isLt, dot.toNat_le]
  | shownum V base frac => simp [assemble, disassemble, Instr.row, V.isLt, frac.isLt]
  | setseg idx code dot => simp [assemble, disassemble, Instr.row, idx.isLt, code.isLt, dot.toNat_le]

namespace Machine

theorem valueOf_mul (V : ValueField) : valueOf V * 65536 = (sint40 V : ℚ) := by
  rw [valueOf, div_mul_cancel₀ _ (by norm_num)]

/-- A number in the range of the field is read back from it (R8, R71). -/
theorem sint40_ofInt {z : ℤ} (h1 : -2 ^ 39 ≤ z) (h2 : z < 2 ^ 39) : sint40 (BitVec.ofInt 40 z) = z := by
  rw [sint40_eq_toInt, BitVec.toInt_ofInt, Int.bmod_eq_of_le (by norm_num; omega) (by norm_num; omega)]

theorem valueOf_of_fieldOf? {v : ℚ} {V : ValueField} (h : fieldOf? v = some V) : valueOf V = v := by
  rw [fieldOf?] at h
  split at h
  · next range =>
    obtain ⟨exact_den, above, below⟩ := range
    cases h
    rw [valueOf, sint40_ofInt above below, Rat.coe_int_num_of_den_eq_one exact_den,
      mul_div_cancel_right₀ _ (by norm_num)]
  · cases h

theorem fieldOf?_valueOf (V : ValueField) : fieldOf? (valueOf V) = some V := by
  rw [fieldOf?, valueOf_mul, Rat.num_intCast, if_pos ⟨Rat.den_intCast _, sint40_bounds V⟩, sint40_eq_toInt,
    BitVec.ofInt_toInt]

/-- Settles O7: in units of 1/65536 the value is the integer of the field. -/
theorem decimalValueHasOneField : Obligations.DecimalValueHasOneField :=
  ⟨fun _ _ => valueOf_of_fieldOf?, fieldOf?_valueOf⟩

end Machine

end Sys2Proof
end

section
/-! PROOFS. One step (R65, R72, R222, R233): what each kind of input does to an idle and to a busy block. -/

namespace Sys2Proof.Machine

theorem step_of_no_input {s : State} (h : s.inputs = []) : step s = .next s := by
  simp [step, State.nextInput, h]

theorem step_of_reset {s : State} {rest : List HostInput} (h : s.inputs = .reset :: rest) :
    step s = .next (State.assertReset { s with inputs := rest }) := by
  simp [step, State.nextInput, h]

theorem step_of_busy {s : State} {w : CmdWord} {rest : List HostInput} (h : s.inputs = .command w :: rest)
    (busy : s.busy = true) : step s = .next s := by
  simp [step, State.nextInput, h, busy]

theorem step_of_decode {s : State} {w : CmdWord} {rest : List HostInput} {i : Instr} (h : s.inputs = .command w :: rest)
    (idle : s.busy = false) (hd : decode w = .ok i) : step s = exec i { s with inputs := rest } := by
  simp [step, State.nextInput, h, idle, hd]

theorem step_of_illegal {s : State} {w : CmdWord} {rest : List HostInput} {e : Illegal}
    (h : s.inputs = .command w :: rest) (idle : s.busy = false) (hd : decode w = .error e) :
    step s = .next { s with inputs := rest } := by
  simp [step, State.nextInput, h, idle, hd, State.ignoreWord]

/-- Settles O8: an idle block accepts the word and executes what it decodes to. -/
theorem stepRunsTheDecodedCommand : Obligations.StepRunsTheDecodedCommand := fun _ _ _ _ => step_of_decode

/-- A word that no row matches does not decode. -/
theorem exists_error_of_not_legalWord {w : CmdWord} (h : legalWord w = false) : ∃ e, decode w = .error e := by
  cases hd : decode w with
  | error e => exact ⟨e, rfl⟩
  | ok i =>
    have : legalWord w = true := List.any_eq_true.mpr ⟨_, row_mem_opcodeTable i, hits_of_decode hd⟩
    exact absurd (h.symm.trans this) Bool.false_ne_true

/-- Settles O9: a word that no row matches is refused by the decoder, which sends the step to the no-op. -/
theorem illegalWordChangesNothing : Obligations.IllegalWordChangesNothing := by
  intro s w rest h idle illegal
  obtain ⟨e, hd⟩ := exists_error_of_not_legalWord illegal
  exact ⟨step_of_illegal h idle hd, by rw [wordLabel, hd]⟩

/-- No command ends otherwise than with a next state (R190). -/
theorem exec_next (i : Instr) (s : State) : ∃ t, exec i s = .next t := by cases i <;> exact ⟨_, rfl⟩

theorem step_next (s : State) : ∃ t, step s = .next t := by
  match h : s.inputs with
  | [] => exact ⟨s, step_of_no_input h⟩
  | .reset :: rest => exact ⟨_, step_of_reset h⟩
  | .command w :: rest =>
    cases busy : s.busy with
    | true => exact ⟨s, step_of_busy h busy⟩
    | false =>
      cases hd : decode w with
      | error e => exact ⟨_, step_of_illegal h busy hd⟩
      | ok i => exact step_of_decode h busy hd ▸ exec_next i _

/-- Settles O13: `exec` completes every command, and every branch of a step ends in a command or a next state. -/
theorem everyCommandAndStepAnswersNext : Obligations.EveryCommandAndStepAnswersNext := ⟨exec_next, step_next⟩

/-- Settles O11: the input is taken off the list, and the rest is what `assertReset` does field by field. -/
theorem resetInputRestoresTheResetState : Obligations.ResetInputRestoresTheResetState := by
  intro s rest h
  refine ⟨_, step_of_reset h, fun i => ?_, rfl, rfl, rfl, rfl, rfl, rfl, rfl⟩
  simp

/-- On a busy block each shared operation does nothing, so neither does a command made of them (R233). -/
theorem keptByBlocks_eq_of_busy {s : State} (busy : s.busy = true) : KeptByBlocks (· = s) where
  cmdByte _ c _ h := by rw [h]; exact State.cmdByte_of_busy c busy
  flushSlot _ i h := by rw [h]; exact State.flushSlot_of_busy i busy
  setSlots _ f _ h := by rw [h]; exact State.setSlots_of_busy f busy

theorem exec_of_busy (i : Instr) {s : State} (busy : s.busy = true) : exec i s = .next s := by
  obtain ⟨t, ht⟩ := exec_next i s
  rw [ht, (keptByBlocks_eq_of_busy busy).exec ht rfl]

/-- Settles O10: no input and a command word on a busy block are branches of the step that leave the state alone. -/
theorem waitingBlockDoesNothing : Obligations.WaitingBlockDoesNothing :=
  ⟨fun _ => step_of_no_input, fun _ _ _ => step_of_busy, fun i _ => exec_of_busy i⟩

/-- Settles O34: the four values, and the case table decided. -/
theorem physSkipsTheColonSlot : Obligations.PhysSkipsTheColonSlot :=
  ⟨rfl, rfl, rfl, rfl, fun k l => ⟨phys_ne_colon k, by revert k l; decide⟩⟩

/-- Settles O24: the check of `frac` is the first thing SHOWNUM does (R197). -/
theorem reservedFracIsIgnored : Obligations.ReservedFracIsIgnored := by
  intro s V base frac reserved
  rw [exec_shownum, labelOf_shownum, showNum, if_pos reserved]
  exact ⟨rfl, rfl⟩

end Sys2Proof.Machine
end

section
/-! PROOFS. The chip's memories and what a write does to the chip (R27 to R31, R46, R52). -/

namespace Sys2Proof.Machine

/-! ## Canonical memories -/

/-- In a canonical memory every cell is what its address reads as. -/
theorem Memory.mem_iff_read {m : Memory} (hm : m.wf) (a : Nat) (b : Byte) : (a, b) ∈ m ↔ m.read a = some b := by
  induction m with
  | nil => simp
  | cons cell m ih =>
    obtain ⟨k, v⟩ := cell
    obtain ⟨above, hm'⟩ := List.pairwise_cons.mp hm
    rw [List.mem_cons, Memory.read_cons, ih hm']
    split
    · next h =>
      subst h
      have absent : Memory.read m k ≠ some b := fun hr => (above _ ((ih hm').mpr hr)).false
      simp [absent, eq_comm]
    · next h => simp [Ne.symm h]

theorem Memory.eq_of_read_eq {m m' : Memory} (hm : m.wf) (hm' : m'.wf) (h : ∀ a, m.read a = m'.read a) : m = m' := by
  have same_cells : ∀ x, x ∈ m ↔ x ∈ m' := fun x => by
    rw [Memory.mem_iff_read hm x.1 x.2, Memory.mem_iff_read hm' x.1 x.2, h]
  have asymmetric : Std.Antisymm fun x y : Host.Cell => x.1 < y.1 := ⟨fun _ _ lt gt => (lt.asymm gt).elim⟩
  have irreflexive : Std.Irrefl fun x y : Host.Cell => x.1 < y.1 := ⟨fun x => lt_irrefl x.1⟩
  exact hm.eq_of_mem_iff hm' same_cells

/-- Settles O58: a canonical memory is the rising list of the cells that its reads name. -/
theorem canonicalMemoriesThatReadAlikeAreEqual : Obligations.CanonicalMemoriesThatReadAlikeAreEqual :=
  fun _ _ => Memory.eq_of_read_eq

/-! ## What the chip keeps of a write -/

section Take
variable (a : BusAddr) (off lo hi b : Byte) (c : Chip)

@[simp] theorem Chip.take_slotWrite_display :
    (c.take (.slotWrite a off lo hi)).display = (c.display.write off.toNat lo).write (off.toNat + 1) hi := rfl
@[simp] theorem Chip.take_slotWrite_settings : (c.take (.slotWrite a off lo hi)).settings = c.settings := rfl
@[simp] theorem Chip.take_cmdWrite_display : (c.take (.cmdWrite a b)).display = c.display := by
  rw [Chip.take]; split <;> rfl
theorem Chip.take_cmdWrite_settings {b : Byte} {k : Nat} (h : settingKey? b = some k) :
    (c.take (.cmdWrite a b)).settings = c.settings.write k b := by
  simp only [Chip.take, h]
end Take

/-- A slot write is read back at its offset and at the next one, and nowhere else (R42). -/
theorem Chip.read_take_slotWrite (a : BusAddr) (off lo hi : Byte) (c : Chip) (x : Nat) :
    (c.take (.slotWrite a off lo hi)).display.read x =
      if x = off.toNat + 1 then some hi else if x = off.toNat then some lo else c.display.read x := by
  rw [Chip.take_slotWrite_display, Memory.read_write, Memory.read_write]

/-- Settles O57: both sides read alike at every offset, and they are canonical. -/
theorem slotWriteTwiceIsSlotWriteOnce : Obligations.SlotWriteTwiceIsSlotWriteOnce := by
  intro c a off lo hi hc
  have canonical : ∀ d : Chip, d.display.wf → (d.take (.slotWrite a off lo hi)).display.wf :=
    fun d hd => Memory.wf_write _ _ (Memory.wf_write _ _ hd)
  have display_eq := Memory.eq_of_read_eq (canonical _ (canonical c hc)) (canonical c hc) fun x => by
    simp only [Chip.read_take_slotWrite]
    split_ifs <;> rfl
  exact congrArg (Chip.mk · c.settings) display_eq

@[simp] theorem regOff_toNat (i : Fin 5) : (regOff i).toNat = 2 * i.val := by revert i; decide

/-- Every command byte of the block sets one of the chip's settings (R27, R53). -/
theorem settingKey?_of_mem_commandBytes : ∀ b ∈ commandBytes, ∃ k ∈ settingKeys, settingKey? b = some k := by decide

/-- Only the enable byte sets the oscillator (R28). -/
theorem settingKey?_eq_oscillator {b : Byte} (h : settingKey? b = some 0x21) : b = 0x21 := by
  simp only [settingKey?] at h
  split at h
  · assumption
  · split_ifs at h <;> simp at h

/-- Whatever the answer is, the chip takes the write or it does not. -/
theorem State.busWrite_chip_cases (s : State) (e : BusEvent) :
    (s.busWrite e).chip = s.chip ∨ (s.busWrite e).chip = s.chip.take e := by
  rw [State.busWrite_chip]
  split
  · exact .inr rfl
  · exact .inl rfl

/-- What holds of the chip before a write, and of the chip that has taken it, holds after the write, whatever the
answer. -/
theorem State.busWrite_chip_keeps {P : Chip → Prop} {e : BusEvent} {s : State} (h : P s.chip)
    (take : P (s.chip.take e)) : P (s.busWrite e).chip := by
  rcases s.busWrite_chip_cases e with eq | eq
  · rwa [eq]
  · rwa [eq]

end Sys2Proof.Machine
end

section
/-! PROOFS. What every step keeps, from the building blocks of the commands: the parameters (R15, R26), the high bytes
(R23), the legal log (R53, R78), the chip's registers (R40, R42) and its oscillator (R28). -/

namespace Sys2Proof.Machine

/-! ## The parameters -/

theorem keptByBlocks_config (c : Config) : KeptByBlocks (·.config = c) where
  cmdByte _ _ _ h := (State.busWrite_config _ _).trans h
  flushSlot _ _ h := (State.busWrite_config _ _).trans h
  setSlots _ _ _ h := (State.setSlots_config _ _).trans h

/-- Settles O45: no building block writes them, and reset does not either. -/
theorem stepKeepsTheParameters : Obligations.StepKeepsTheParameters := fun s _ hs =>
  (keptByBlocks_config s.config).step (fun _ _ h => h) (fun _ h => h) rfl hs

/-! ## The high bytes and the log -/

theorem keptByBlocks_highBytesZero : KeptByBlocks State.highBytesZero where
  cmdByte s c _ h := by
    show Slots.low (s.busWrite _).slots
    rwa [State.busWrite_slots]
  flushSlot s i h := by
    show Slots.low (s.flushSlot i).slots
    rwa [State.flushSlot_slots]
  setSlots s f hf h := by
    show Slots.low (s.setSlots f).slots
    rw [State.setSlots_slots]
    split
    · exact h
    · exact hf _ h

theorem State.highBytesZero_assertReset (s : State) : s.assertReset.highBytesZero := fun i => by simp

/-- Settles O40: every word a command stores is a zero-extended byte, and reset stores 0. -/
theorem slotHighBytesStayZero : Obligations.SlotHighBytesStayZero := fun _ _ h hs =>
  keptByBlocks_highBytesZero.step (fun _ _ h => h) (fun s _ => s.highBytesZero_assertReset) h hs

theorem State.logLegal_busWrite {s : State} {e : BusEvent} (he : e.legal s.config = true) (h : s.logLegal) :
    (s.busWrite e).logLegal := by
  intro x hx
  rw [State.busWrite_busLog] at hx
  rw [State.busWrite_config]
  split at hx
  · exact h x hx
  · rcases List.mem_append.mp hx with hx | hx
    · exact h x hx
    · exact (List.mem_singleton.mp hx) ▸ he

theorem cmdWrite_legal (c : Config) {b : Byte} (hb : b ∈ commandBytes) :
    (BusEvent.cmdWrite c.busAddr b).legal c = true := by
  simp [BusEvent.legal, hb]

/-- A flush is legal when the slot's high byte is 0: its offset is one of R42 (R92). -/
theorem slotWrite_legal (c : Config) (i : Fin 5) (lo : Byte) :
    (BusEvent.slotWrite c.busAddr (regOff i) lo 0).legal c = true := by
  have offset : regOff i = 0 ∨ regOff i = 2 ∨ regOff i = 4 ∨ regOff i = 6 ∨ regOff i = 8 := by revert i; decide
  simpa [BusEvent.legal] using offset

theorem State.logLegal_of_nil {s : State} (h : s.busLog = []) : s.logLegal := by
  intro e he
  rw [h] at he
  exact absurd he List.not_mem_nil

theorem keptByBlocks_logLegal : KeptByBlocks fun s => s.highBytesZero ∧ s.logLegal where
  cmdByte s c hc h := ⟨keptByBlocks_highBytesZero.cmdByte s c hc h.1, State.logLegal_busWrite (cmdWrite_legal _ hc) h.2⟩
  flushSlot s i h := by
    obtain ⟨low, legal⟩ := h
    refine ⟨keptByBlocks_highBytesZero.flushSlot s i low, State.logLegal_busWrite ?_ legal⟩
    rw [low i]
    exact slotWrite_legal _ i _
  setSlots s f hf h := by
    obtain ⟨low, legal⟩ := h
    refine ⟨keptByBlocks_highBytesZero.setSlots s f hf low, fun e he => ?_⟩
    rw [State.setSlots_busLog] at he
    rw [State.setSlots_config]
    exact legal e he

/-- Settles O41: a command emits only command bytes of R53 and flushes of slots whose high byte is 0; reset empties the
log. -/
theorem logHoldsOnlyTheEventsOfTheSpec : Obligations.LogHoldsOnlyTheEventsOfTheSpec := fun _ _ low legal hs =>
  (keptByBlocks_logLegal.step (fun _ _ h => h) (fun s _ => ⟨s.highBytesZero_assertReset, State.logLegal_of_nil rfl⟩)
    ⟨low, legal⟩ hs).2

/-! ## The chip -/

/-- A property of the chip that taking the block's own writes keeps is kept by every building block. -/
theorem keptByBlocks_of_chip {P : Chip → Prop}
    (cmd : ∀ (c : Chip) (a : BusAddr), ∀ b ∈ commandBytes, P c → P (c.take (.cmdWrite a b)))
    (slot : ∀ (c : Chip) (a : BusAddr) (i : Fin 5) (lo hi : Byte), P c → P (c.take (.slotWrite a (regOff i) lo hi))) :
    KeptByBlocks (P ·.chip) where
  cmdByte s c hc h := State.busWrite_chip_keeps h (cmd _ _ c hc h)
  flushSlot s i h := State.busWrite_chip_keeps h (slot _ _ i _ _ h)
  setSlots s f _ h := by rwa [State.setSlots_chip]

/-- `State.chipCanonical`, said of the chip. -/
abbrev Chip.Canonical (c : Chip) : Prop :=
  c.display.wf ∧ c.settings.wf ∧ c.display.map (·.1) = displayOffsets ∧ c.settings.map (·.1) = settingKeys

theorem Chip.canonical_take_cmdWrite (c : Chip) (a : BusAddr) {b : Byte} (hb : b ∈ commandBytes) (h : c.Canonical) :
    (c.take (.cmdWrite a b)).Canonical := by
  obtain ⟨k, hk, key⟩ := settingKey?_of_mem_commandBytes b hb
  obtain ⟨display_wf, settings_wf, display_keys, settings_keys⟩ := h
  rw [Chip.Canonical, Chip.take_cmdWrite_display, Chip.take_cmdWrite_settings a c key,
    Memory.keys_write b settings_wf (settings_keys ▸ hk)]
  exact ⟨display_wf, Memory.wf_write _ _ settings_wf, display_keys, settings_keys⟩

theorem Chip.canonical_take_slotWrite (c : Chip) (a : BusAddr) (i : Fin 5) (lo hi : Byte) (h : c.Canonical) :
    (c.take (.slotWrite a (regOff i) lo hi)).Canonical := by
  obtain ⟨display_wf, settings_wf, display_keys, settings_keys⟩ := h
  have even_offset : 2 * i.val ∈ displayOffsets := by revert i; decide
  have odd_offset : 2 * i.val + 1 ∈ displayOffsets := by revert i; decide
  have keys_even := Memory.keys_write lo display_wf (display_keys.symm ▸ even_offset)
  have wf_even := Memory.wf_write (2 * i.val) lo display_wf
  have keys_odd := Memory.keys_write hi wf_even (keys_even.trans display_keys ▸ odd_offset)
  rw [Chip.Canonical, Chip.take_slotWrite_display, Chip.take_slotWrite_settings, regOff_toNat, keys_odd, keys_even]
  exact ⟨Memory.wf_write _ _ wf_even, settings_wf, display_keys, settings_keys⟩

/-- Settles O44: the chip is written only at registers it has, and such a write keeps form and addresses. -/
theorem chipMemoriesStayCanonical : Obligations.ChipMemoriesStayCanonical := fun _ _ h hs =>
  (keptByBlocks_of_chip (P := Chip.Canonical) (fun c a _ hb => Chip.canonical_take_cmdWrite c a hb)
    Chip.canonical_take_slotWrite).step (fun _ _ h => h) (fun _ h => h) h hs

theorem Chip.oscillator_take_cmdWrite (c : Chip) (a : BusAddr) {b : Byte} (hb : b ∈ commandBytes)
    (h : c.settings.read 0x21 = some 0x21) : (c.take (.cmdWrite a b)).settings.read 0x21 = some 0x21 := by
  obtain ⟨k, -, key⟩ := settingKey?_of_mem_commandBytes b hb
  rw [Chip.take_cmdWrite_settings a c key, Memory.read_write]
  split
  · next e =>
    subst e
    rw [settingKey?_eq_oscillator key]
  · exact h

/-- Settles O55: the byte that sets the oscillator's key is the enable byte itself. -/
theorem oscillatorStaysEnabled : Obligations.OscillatorStaysEnabled := fun _ _ h hs =>
  (keptByBlocks_of_chip (P := fun c => c.settings.read 0x21 = some 0x21)
    (fun c a _ hb => Chip.oscillator_take_cmdWrite c a hb) (fun _ _ _ _ _ h => h)).step
    (fun _ _ h => h) (fun _ h => h) h hs

/-! ## The reset state -/

theorem State.mirrored_of_nil {s : State} (h : s.busLog = []) : s.mirrored := by
  intro _ i p hp
  rw [h] at hp
  cases hp

theorem State.chipMirrored_of_nil {s : State} (h : s.busLog = []) : s.chipMirrored := by
  intro i p hp
  rw [h] at hp
  cases hp

theorem State.resetWith_read_display (c : Config) (d k : Nat → Byte) {a : Nat} (ha : a < 10) :
    (State.resetWith c d k).chip.display.read a = some (d a) :=
  Memory.read_map_cells d (by revert a; decide)

/-- Settles O39: the chip's registers are those of `poweredOn`; the slots are zero, and the log is empty. -/
theorem resetMeetsTheInvariants : Obligations.ResetMeetsTheInvariants := by
  rintro c d k _ rfl
  refine ⟨rfl, rfl, fun a ha => State.resetWith_read_display c d k ha, fun a ha => Memory.read_map_cells k ha,
    (State.resetWith c d k).highBytesZero_assertReset, State.logLegal_of_nil rfl, State.mirrored_of_nil rfl,
    State.chipMirrored_of_nil rfl, Chip.poweredOn_display_wf d k, Chip.poweredOn_settings_wf d k, rfl, rfl⟩

end Sys2Proof.Machine
end

section
/-! PROOFS. Every command in one form: command bytes, one change of the slots, and flushes of slots, in this order
(R111 to R114, R130, R150, R160, R170 to R172).  What holds of this form holds of every command. -/

namespace Sys2Proof.Machine

/-! ## The form -/

/-- What a command does: it sends the command bytes `bytes`, changes the slots by `edit`, and flushes the slots
`sent`. -/
structure Plan where
  bytes : List Byte
  edit  : Slots → Slots
  sent  : List (Fin 5)

namespace Plan

/-- A command that is ignored. -/
def nothing : Plan := ⟨[], id, []⟩

/-- A command byte sent alone (R96). -/
def byte (b : Byte) : Plan := ⟨[b], id, []⟩

/-- One slot stored and sent alone (R97, R113). -/
def oneSlot (i : Fin 5) (b : Byte) : Plan := ⟨[], (·.set i (zext16 b)), [i]⟩

/-- A change of the slots and a full flush (R94). -/
def fullFlush (edit : Slots → Slots) : Plan := ⟨[], edit, physIndices⟩

/-- The events of the command bytes. -/
def cmdEvents (p : Plan) (a : BusAddr) : List BusEvent := p.bytes.map (.cmdWrite a)

/-- The events of the flushes, when the slots hold `sl`. -/
def slotEvents (p : Plan) (a : BusAddr) (sl : Slots) : List BusEvent :=
  p.sent.map fun i => .slotWrite a (regOff i) (loByte sl[i]) (hiByte sl[i])

/-- All the events of a command that leaves the slots `sl`. -/
def events (p : Plan) (a : BusAddr) (sl : Slots) : List BusEvent := p.cmdEvents a ++ p.slotEvents a sl

/-- How many writes it makes. -/
def writes (p : Plan) : Nat := p.bytes.length + p.sent.length

@[simp] theorem length_cmdEvents (p : Plan) (a : BusAddr) : (p.cmdEvents a).length = p.bytes.length := by
  simp [cmdEvents]

@[simp] theorem length_slotEvents (p : Plan) (a : BusAddr) (sl : Slots) :
    (p.slotEvents a sl).length = p.sent.length := by
  simp [slotEvents]

@[simp] theorem length_events (p : Plan) (a : BusAddr) (sl : Slots) : (p.events a sl).length = p.writes := by
  simp [events, writes]

end Plan

/-- The plan run with the operations of the block. -/
def State.runPlan (p : Plan) (s : State) : State :=
  p.sent.foldl (fun t i => t.flushSlot i) ((p.bytes.foldl (fun t b => t.cmdByte b) s).setSlots p.edit)

/-- The plan of each command, for a block with parameters `c`. -/
def plan (c : Config) : Instr → Plan
  | .init =>
    ⟨[oscOn, blinkByte 0, brightByte initBright], fun _ => Vector.replicate 5 (zext16 blank), physIndices⟩
  | .clear => .fullFlush fun _ => Vector.replicate 5 (zext16 blank)
  | .setblink rate => .byte (blinkByte rate)
  | .setbright level => .byte (brightByte level)
  | .showcolon on => .oneSlot colonIdx (if on then colonOn else blank)
  | .showdigit idx val dot =>
    if h : idx.toNat < 4 then
      if hv : val.toNat < 16 then .oneSlot (phys ⟨idx.toNat, h⟩) (segEnc c ⟨val.toNat, hv⟩ dot) else .nothing
    else .nothing
  | .shownum V base frac =>
    let F := finalF (valueOf V) base.radix frac.toNat
    if 4 < frac.toNat then .nothing
    else if fitsAt (valueOf V) base.radix F then
      .fullFlush (renderSlots c base.radix (isNeg V) F (printedInt (magnitude V) base.radix F))
    else .fullFlush fun _ => Vector.replicate 5 (zext16 dash)
  | .showerr => .fullFlush fun _ => Vector.replicate 5 (zext16 dash)
  | .setseg idx code dot =>
    if h : idx.toNat < 4 then .oneSlot (phys ⟨idx.toNat, h⟩) (code ||| dotBit dot) else .nothing
  | .flushall => .fullFlush id

@[simp] theorem State.setSlots_id (s : State) : s.setSlots id = s := by unfold State.setSlots; split <;> rfl

@[simp] theorem State.runPlan_nothing (s : State) : s.runPlan .nothing = s := s.setSlots_id

theorem State.runPlan_byte (b : Byte) (s : State) : s.runPlan (.byte b) = s.cmdByte b := (s.cmdByte b).setSlots_id

/-- Every command is its plan. -/
theorem exec_eq_runPlan (i : Instr) (s : State) : exec i s = .next (s.runPlan (plan s.config i)) := by
  cases i with
  | init | clear | showcolon on | showerr => rfl
  | setblink rate | setbright level => exact congrArg _ (State.runPlan_byte _ s).symm
  | showdigit idx val dot =>
    rw [exec_showdigit, showDigit, plan]
    split
    · split
      · rfl
      · rw [State.runPlan_nothing]
    · rw [State.runPlan_nothing]
  | shownum V base frac =>
    rw [exec_shownum]
    rcases showNum_cases V base frac s with ⟨reserved, e⟩ | ⟨admitted, fits, e⟩ | ⟨admitted, overflows, e⟩
    · simp [e, plan, reserved]
    · simp only [e, plan, if_neg (not_lt.mpr admitted), if_pos fits]
      rfl
    · simp only [e, plan, if_neg (not_lt.mpr admitted), if_neg overflows]
      rfl
  | setseg idx code dot =>
    rw [exec_setseg, setSeg, plan]
    split
    · rfl
    · rw [State.runPlan_nothing]
  | flushall =>
    have no_change : s.runPlan (.fullFlush id) = s.flushAll := congrArg State.flushAll s.setSlots_id
    exact congrArg Host.Outcome.next no_change.symm

/-- The plan of an ignored command is nothing. -/
theorem plan_of_ignored {i : Instr} (c : Config) (h : i.wellFormed = false) : plan c i = .nothing := by
  cases i with
  | init | clear | setblink rate | setbright level | showcolon on | showerr | flushall => cases h
  | showdigit idx val dot =>
    simp only [plan]
    split
    · next hi => exact dif_neg fun hv => by simp [Instr.wellFormed, validIndex, validDigit, hi, hv] at h
    · rfl
  | shownum V base frac => exact if_pos (by simpa [Instr.wellFormed, validFrac] using h)
  | setseg idx code dot => exact dif_neg fun hi => by simp [Instr.wellFormed, validIndex, hi] at h

/-- The four shapes of a plan; INIT's is the one beside them. -/
theorem plan_cases (c : Config) (i : Instr) :
    plan c i = .nothing ∨ (∃ b, plan c i = .byte b) ∨ (∃ k b, plan c i = .oneSlot k b) ∨
      (∃ f, plan c i = .fullFlush f) ∨ i = .init := by
  cases i with
  | init => simp
  | clear | showerr | flushall => exact .inr (.inr (.inr (.inl ⟨_, rfl⟩)))
  | setblink rate | setbright level => exact .inr (.inl ⟨_, rfl⟩)
  | showcolon on => exact .inr (.inr (.inl ⟨_, _, rfl⟩))
  | showdigit idx val dot =>
    simp only [plan]
    split
    · split
      · exact .inr (.inr (.inl ⟨_, _, rfl⟩))
      · exact .inl rfl
    · exact .inl rfl
  | shownum V base frac =>
    simp only [plan]
    split
    · exact .inl rfl
    · split <;> exact .inr (.inr (.inr (.inl ⟨_, rfl⟩)))
  | setseg idx code dot =>
    simp only [plan]
    split
    · exact .inr (.inr (.inl ⟨_, _, rfl⟩))
    · exact .inl rfl

theorem mem_physIndices : ∀ k : Fin 5, k ∈ physIndices := by decide

/-- A slot that is not sent keeps its word: a command sends every slot that it changes (R31). -/
theorem plan_edit_of_not_sent {c : Config} {i : Instr} {k : Fin 5} (hk : k ∉ (plan c i).sent) (sl : Slots) :
    ((plan c i).edit sl)[k] = sl[k] := by
  rcases plan_cases c i with h | ⟨b, h⟩ | ⟨k', b, h⟩ | ⟨f, h⟩ | rfl
  · rw [h]; rfl
  · rw [h]; rfl
  · rw [h] at hk ⊢
    have other : k'.val ≠ k.val := fun e => hk (List.mem_singleton.mpr (Fin.ext e).symm)
    exact Vector.getElem_set_ne k'.isLt k.isLt other
  · rw [h] at hk
    exact absurd (mem_physIndices k) hk
  · exact absurd (mem_physIndices k) hk

/-- But for INIT, a command that sends command bytes changes no slot. -/
theorem plan_bytes_or_edit {i : Instr} (hi : i ≠ .init) (c : Config) :
    (plan c i).bytes = [] ∨ (plan c i).edit = id := by
  rcases plan_cases c i with h | ⟨b, h⟩ | ⟨k, b, h⟩ | ⟨f, h⟩ | h
  · exact .inl (by rw [h]; rfl)
  · exact .inr (by rw [h]; rfl)
  · exact .inl (by rw [h]; rfl)
  · exact .inl (by rw [h]; rfl)
  · exact absurd h hi

theorem busWrites_of_ignored {i : Instr} (h : i.wellFormed = false) : busWrites i = 0 := by
  simp [busWrites, h]

/-- A plan makes as many writes as its command's kind. -/
theorem plan_writes (c : Config) (i : Instr) : (plan c i).writes = busWrites i := by
  cases h : i.wellFormed with
  | false => rw [plan_of_ignored c h, busWrites_of_ignored h]; rfl
  | true =>
    cases i with
    | init | clear | setblink rate | setbright level | showcolon on | showerr | flushall => rfl
    | showdigit idx val dot =>
      obtain ⟨hi, hv⟩ : idx.toNat < 4 ∧ val.toNat < 16 := by simpa [Instr.wellFormed, validIndex, validDigit] using h
      simp only [plan, dif_pos hi, dif_pos hv, busWrites, h]
      rfl
    | shownum V base frac =>
      have admitted : frac.toNat ≤ 4 := by simpa [Instr.wellFormed, validFrac] using h
      simp only [plan, if_neg (not_lt.mpr admitted), busWrites, h]
      split <;> rfl
    | setseg idx code dot =>
      have hi : idx.toNat < 4 := by simpa [Instr.wellFormed, validIndex] using h
      simp only [plan, dif_pos hi, busWrites, h]
      rfl

theorem busWrites_le (i : Instr) : busWrites i ≤ 8 := by
  unfold busWrites
  split
  · cases i <;> simp
  · simp

/-! ## What a run of a plan leaves -/

/-- The flushes send the slots as they stand after the change: no flush changes a slot. -/
theorem State.foldl_flushSlot (is : List (Fin 5)) (s : State) :
    is.foldl (fun t i => t.flushSlot i) s =
      (is.map fun i => .slotWrite s.config.busAddr (regOff i) (loByte s.slots[i]) (hiByte s.slots[i])).foldl
        (fun t e => t.busWrite e) s := by
  induction is generalizing s with
  | nil => rfl
  | cons i is ih =>
    simp only [List.foldl_cons, List.map_cons, ih]
    simp only [State.flushSlot, State.memWrite, State.busWrite_slots, State.busWrite_config]

theorem State.foldl_cmdByte (bs : List Byte) (s : State) :
    bs.foldl (fun t b => t.cmdByte b) s =
      (bs.map fun b => .cmdWrite s.config.busAddr b).foldl (fun t e => t.busWrite e) s := by
  induction bs generalizing s with
  | nil => rfl
  | cons b bs ih =>
    simp only [List.foldl_cons, List.map_cons, ih]
    simp only [State.cmdByte, State.busWrite_config]

/-- Every write answered: the whole effect. -/
theorem State.runPlan_of_answered {s : State} {p : Plan} (h : s.answered p.writes) :
    s.runPlan p = s.after (p.edit s.slots) (p.events s.config.busAddr (p.edit s.slots)) := by
  have bytes_answered : s.answered (p.cmdEvents s.config.busAddr).length :=
    State.answered_mono (by simp [Plan.writes]) h
  have sent_answered : (s.after (p.edit s.slots) (p.cmdEvents s.config.busAddr)).answered p.sent.length :=
    State.answered_after _ _ (by simpa [Plan.writes] using h)
  rw [State.runPlan, State.foldl_cmdByte, ← Plan.cmdEvents, State.foldl_busWrite_of_answered bytes_answered,
    State.setSlots_after _ h.1, State.foldl_flushSlot, State.after_config, State.after_slots, ← Plan.slotEvents,
    State.foldl_busWrite_of_answered (by simpa using sent_answered), State.after_slots, State.after_after]
  rfl

/-- A command whose writes are answered, in closed form. -/
theorem exec_of_answered {i : Instr} {s : State} (h : s.answered (busWrites i)) :
    exec i s = .next (s.after ((plan s.config i).edit s.slots)
      ((plan s.config i).events s.config.busAddr ((plan s.config i).edit s.slots))) := by
  rw [exec_eq_runPlan, State.runPlan_of_answered (by rwa [plan_writes])]

/-- What each operation of a plan keeps, the run keeps. -/
theorem State.runPlan_keeps {I : State → Prop} {p : Plan} (cmd : ∀ s, ∀ b ∈ p.bytes, I s → I (s.cmdByte b))
    (edit : ∀ s, I s → I (s.setSlots p.edit)) (flush : ∀ s, ∀ i ∈ p.sent, I s → I (s.flushSlot i)) {s : State}
    (h : I s) : I (s.runPlan p) := by
  have after_bytes : I (p.bytes.foldl (fun t b => t.cmdByte b) s) :=
    List.foldlRecOn p.bytes _ h fun t ht b hb => cmd t b hb ht
  exact List.foldlRecOn p.sent _ (edit _ after_bytes) fun t ht i hi => flush t i hi ht

end Sys2Proof.Machine
end

section
/-! PROOFS. The whole effect of SETSEG (R112), FLUSHALL (R114), INIT (R170) and SETBLINK (R171); the labels (R193). -/

namespace Sys2Proof.Machine

/-- Settles O15: a valid index is one slot and one event, an invalid one nothing. -/
theorem setSegStoresTheRawCodeInOneDigitSlot : Obligations.SetSegStoresTheRawCodeInOneDigitSlot := by
  refine fun s idx code dot => ⟨fun hi answered i i_val => ?_, fun invalid => ?_⟩
  · obtain rfl : i = phys ⟨idx.toNat, hi⟩ := Fin.ext i_val
    rw [exec_setseg, labelOf_setseg, setSeg_of_valid hi, State.writeDigit_of_answered _ _ _ answered, dotBit_eq]
    exact ⟨rfl, rfl⟩
  · rw [exec_setseg, labelOf_setseg, setSeg_of_invalid invalid]
    exact ⟨rfl, rfl⟩

/-- Settles O17: a flush with no change of the slots before it. -/
theorem flushAllSendsTheFiveSlots : Obligations.FlushAllSendsTheFiveSlots := fun _ answered =>
  ⟨exec_of_answered (i := .flushall) answered, rfl⟩

theorem exec_init_of_answered {s : State} (h : s.answered 8) :
    exec .init s = .next (s.after (Vector.replicate 5 0)
      ([.cmdWrite s.config.busAddr 0x21, .cmdWrite s.config.busAddr 0x81, .cmdWrite s.config.busAddr 0xEE] ++
        flushEvents s.config.busAddr (Vector.replicate 5 0))) :=
  exec_of_answered (i := .init) h

/-- Settles O20: three command bytes, then the flush of five zero words written out. -/
theorem initRunsThePowerOnSequence : Obligations.InitRunsThePowerOnSequence := by
  refine fun s answered => ⟨?_, rfl⟩
  rw [exec_init_of_answered answered]
  rfl

/-- The blink byte in numbers (R80): the rate is above bit 0, which is 1. -/
theorem blinkByte_eq_add (rate : BitVec 2) : blinkByte rate = BitVec.ofNat 8 (0x81 + 2 * rate.toNat) := by
  revert rate; decide

theorem encode_setblink (rate : BitVec 2) :
    encode (.setblink rate) = 0x0300000000000000#64 ||| BitVec.ofNat 64 rate.toNat := by
  rw [BitVec.ofNat_toNat, encode]

theorem exec_setblink (rate : BitVec 2) (s : State) :
    exec (.setblink rate) s = .next (s.cmdByte (blinkByte rate)) := rfl

/-- Settles O21: the command is one `CmdByte`. -/
theorem setBlinkSendsTheBlinkByte : Obligations.SetBlinkSendsTheBlinkByte := by
  refine fun s rate => ⟨encode_setblink rate, fun answered => ⟨?_, rfl⟩⟩
  rw [exec_setblink, State.cmdByte_of_answered _ answered, blinkByte_eq_add]

/-! ## Labels -/

theorem labelOf_shownum_eq_ignored_iff (V : ValueField) (base : Base) (frac : BitVec 3) (s : State) :
    labelOf (.shownum V base frac) s = .ignored ↔ 4 < frac.toNat := by
  rw [labelOf_shownum]
  rcases showNum_cases V base frac s with ⟨reserved, e⟩ | ⟨admitted, -, e⟩ | ⟨admitted, -, e⟩ <;> rw [e]
  · exact iff_of_true rfl reserved
  · exact iff_of_false nofun (not_lt.mpr admitted)
  · exact iff_of_false nofun (not_lt.mpr admitted)

/-- `Ignored` is the label of the operands out of range, and of no others (R193). -/
theorem labelOf_eq_ignored_iff (i : Instr) (s : State) : labelOf i s = .ignored ↔ i.wellFormed = false := by
  cases i with
  | init | clear | setblink rate | setbright level | showcolon on | showerr | flushall => exact iff_of_false nofun nofun
  | showdigit idx val dot =>
    rw [labelOf_showdigit_eq_ignored_iff]
    simp [Instr.wellFormed, validIndex, validDigit, imp_iff_not_or]
  | shownum V base frac =>
    rw [labelOf_shownum_eq_ignored_iff]
    simp [Instr.wellFormed, validFrac]
  | setseg idx code dot =>
    rw [labelOf_setseg_eq_ignored_iff]
    simp [Instr.wellFormed, validIndex]

theorem labelOf_showdigit_ne_overflow (idx : Byte) (val : BitVec 16) (dot : Bool) (s : State) :
    labelOf (.showdigit idx val dot) s ≠ .overflow := by
  rw [labelOf_showdigit, showDigit]
  split
  · split <;> nofun
  · nofun

theorem labelOf_setseg_ne_overflow (idx code : Byte) (dot : Bool) (s : State) :
    labelOf (.setseg idx code dot) s ≠ .overflow := by
  rw [labelOf_setseg, setSeg]
  split <;> nofun

/-- `Overflow` is the label of a SHOWNUM that does not fit, and of nothing else (R192, R193). -/
theorem labelOf_eq_overflow_iff (i : Instr) (s : State) :
    labelOf i s = .overflow ↔
      ∃ V base frac, i = .shownum V base frac ∧ frac.toNat ≤ 4 ∧ ¬ fitsAt (valueOf V) base.radix 0 := by
  cases i with
  | init | clear | setblink rate | setbright level | showcolon on | showerr | flushall =>
    exact iff_of_false nofun nofun
  | showdigit idx val dot => exact iff_of_false (labelOf_showdigit_ne_overflow idx val dot s) nofun
  | setseg idx code dot => exact iff_of_false (labelOf_setseg_ne_overflow idx code dot s) nofun
  | shownum V base frac =>
    rw [labelOf_shownum_eq_overflow_iff]
    constructor
    · exact fun h => ⟨V, base, frac, rfl, h⟩
    · rintro ⟨_, _, _, ⟨⟩, h⟩
      exact h

/-- Settles O33: the labels of SHOWDIGIT, SETSEG and SHOWNUM by their checks, those of the others always Done. -/
theorem labelsFollowTheOperands : Obligations.LabelsFollowTheOperands := fun i s =>
  ⟨labelOf_eq_ignored_iff i s, labelOf_eq_overflow_iff i s⟩

end Sys2Proof.Machine
end

section
/-! PROOFS. The bus log of a command: how many events it has (R47), and what the BusAdapter's answers do not change of
the block (R195, R233). -/

namespace Sys2Proof.Machine

/-- Settles O48: the events of a command are those of its plan. -/
theorem eventCountOfEachCommand : Obligations.EventCountOfEachCommand := fun i s answered =>
  ⟨_, _, exec_of_answered answered, rfl, (Plan.length_events ..).trans (plan_writes s.config i)⟩

/-! ## No answer stays away -/

/-- None of the scripted answers is `never`. -/
abbrev State.noNever (s : State) : Prop := ∀ a ∈ s.answers, a ≠ .never

theorem State.answered_of_noNever {s : State} (idle : s.busy = false) (h : s.noNever) (n : Nat) : s.answered n :=
  ⟨idle, fun a ha => h a (List.mem_of_mem_take ha)⟩

theorem State.noNever_after {s : State} (sl : Slots) (es : List BusEvent) (h : s.noNever) : (s.after sl es).noNever :=
  fun a ha => h a (List.mem_of_mem_drop ha)

/-- An idle block with every write answered handles its next input, and is idle again. -/
theorem step_works_off {s : State} {x : HostInput} {rest : List HostInput} (h : s.inputs = x :: rest)
    (idle : s.busy = false) (hn : s.noNever) :
    ∃ t, step s = .next t ∧ t.inputs = rest ∧ t.busy = false ∧ t.noNever := by
  cases x with
  | reset => exact ⟨_, step_of_reset h, rfl, rfl, hn⟩
  | command w =>
    cases hd : decode w with
    | error e => exact ⟨_, step_of_illegal h idle hd, rfl, idle, hn⟩
    | ok i =>
      have answered : State.answered { s with inputs := rest } (busWrites i) := State.answered_of_noNever idle hn _
      exact ⟨_, (step_of_decode h idle hd).trans (exec_of_answered answered), rfl, idle, State.noNever_after _ _ hn⟩

theorem core_run_succ {s t : State} (k : Nat) (h : step s = .next t) :
    Host.Core.run core (k + 1) s = Host.Core.run core k t := by
  have core_step : core.step s = .next t := h
  simp only [Host.Core.run, core_step]

/-- Settles O47, by induction on the list: each step takes one input off and leaves the block idle. -/
theorem everyInputIsWorkedOff : Obligations.EveryInputIsWorkedOff := by
  intro s idle hn
  generalize h : s.inputs = xs
  induction xs generalizing s with
  | nil => exact ⟨s, rfl, h, idle⟩
  | cons x xs ih =>
    obtain ⟨t, hstep, t_inputs, t_idle, t_noNever⟩ := step_works_off h idle hn
    rw [List.length_cons, core_run_succ _ hstep]
    exact ih t t_idle t_noNever t_inputs

/-! ## Two states of one block -/

theorem State.sameBlock.withInputs {s s' : State} (h : s.sameBlock s') (rest : List HostInput) :
    State.sameBlock { s with inputs := rest } { s' with inputs := rest } :=
  ⟨h.slots, h.busLog, h.busy, h.config, rfl⟩

/-- A command's whole effect on the block is the same whatever the answers are. -/
theorem State.sameBlock.after {s s' : State} (h : s.sameBlock s') (sl : Slots) (es : List BusEvent) :
    (s.after sl es).sameBlock (s'.after sl es) :=
  ⟨rfl, congrArg (· ++ es) h.busLog, h.busy, h.config, h.inputs⟩

/-- One command, run on two states of one block with all its writes answered. -/
theorem exec_sameBlock {s s' : State} (i : Instr) (h : s.sameBlock s') (hs : s.answered (busWrites i))
    (hs' : s'.answered (busWrites i)) :
    ∃ sl es, exec i s = .next (s.after sl es) ∧ exec i s' = .next (s'.after sl es) ∧ es.length = busWrites i := by
  refine ⟨_, _, exec_of_answered hs, ?_, (Plan.length_events ..).trans (plan_writes s.config i)⟩
  rw [exec_of_answered hs', h.slots, h.config]

/-- Settles O46: the two steps go the same way, since nothing that decides it is an answer; and a command, all its
writes answered, has the same slots and events on both. -/
theorem answersNeverReachTheBlock : Obligations.AnswersNeverReachTheBlock := by
  intro s s' same hn hn'
  match h : s.inputs with
  | [] => exact ⟨s, s', step_of_no_input h, step_of_no_input (same.inputs ▸ h), same, hn, hn'⟩
  | .reset :: rest =>
    exact ⟨_, _, step_of_reset h, step_of_reset (same.inputs ▸ h), ⟨rfl, rfl, rfl, same.config, rfl⟩, hn, hn'⟩
  | .command w :: rest =>
    have h' : s'.inputs = .command w :: rest := same.inputs ▸ h
    cases busy : s.busy with
    | true => exact ⟨s, s', step_of_busy h busy, step_of_busy h' (same.busy ▸ busy), same, hn, hn'⟩
    | false =>
      have busy' : s'.busy = false := same.busy ▸ busy
      cases hd : decode w with
      | error e =>
        exact ⟨_, _, step_of_illegal h busy hd, step_of_illegal h' busy' hd, same.withInputs rest, hn, hn'⟩
      | ok i =>
        obtain ⟨sl, es, run, run', -⟩ := exec_sameBlock i (same.withInputs rest)
          (State.answered_of_noNever busy hn _) (State.answered_of_noNever busy' hn' _)
        exact ⟨_, _, (step_of_decode h busy hd).trans run, (step_of_decode h' busy' hd).trans run',
          (same.withInputs rest).after sl es, State.noNever_after _ _ hn, State.noNever_after _ _ hn'⟩

/-! ## Writes that fail -/

theorem State.answered_of_take {s : State} {n : Nat} {x : Answer} (idle : s.busy = false) (hx : x ≠ .never)
    (h : ∀ a ∈ s.answers.take n, a = x) : s.answered n :=
  ⟨idle, fun a ha => (h a ha).symm ▸ hx⟩

theorem State.answered_of_performed {s : State} {n : Nat} (idle : s.busy = false) (h : s.performed n) : s.answered n :=
  State.answered_of_take (x := .ok) idle nofun h.2

theorem State.answered_of_failed {s : State} {n : Nat} (idle : s.busy = false) (h : s.failed n) : s.answered n :=
  State.answered_of_take (x := .error) idle nofun h.2

/-- Writes that fail leave the chip as it was (R31). -/
theorem Chip.afterWrites_of_failed (n : Nat) {as : List Answer} {es : List BusEvent} (c : Chip)
    (hlen : es.length ≤ as.length) (h : ∀ a ∈ as.take es.length, a = .error) : Chip.afterWrites n as es c = c := by
  induction es generalizing n as c with
  | nil => rfl
  | cons e es ih =>
    cases as with
    | nil => simp at hlen
    | cons a as =>
      obtain ⟨rfl, failed⟩ : a = .error ∧ ∀ a ∈ as.take es.length, a = .error := by simpa using h
      exact ih (n + 1) c (by simpa using hlen) failed

/-- Settles O50: both runs are the one whole effect, and of its writes the first chip has taken none. -/
theorem failedWritesLeaveTheChipStale : Obligations.FailedWritesLeaveTheChipStale := by
  intro i s s' idle failed performed same
  obtain ⟨sl, es, run, run', length_eq⟩ := exec_sameBlock i same
    (State.answered_mono (busWrites_le i) (State.answered_of_failed idle failed))
    (State.answered_mono (busWrites_le i) (State.answered_of_performed (same.busy ▸ idle) performed))
  have writes_le : es.length ≤ 8 := length_eq ▸ busWrites_le i
  refine ⟨_, _, run, run', Chip.afterWrites_of_failed _ _ (writes_le.trans failed.1) fun a ha => ?_, rfl,
    congrArg (· ++ es) same.busLog⟩
  exact failed.2 a ((List.take_sublist_take_left writes_le).mem ha)

/-! ## A write that is never answered -/

/-- Held up at a command byte: the slots are not changed and nothing is flushed. -/
theorem State.runPlan_of_heldAt_byte {s : State} {p : Plan} {n : Nat} (h : s.heldAt n) (hn : n < p.bytes.length)
    (sl : Slots) :
    s.runPlan p = (s.after s.slots ((p.events s.config.busAddr sl).take n)).busWrite
      ((p.events s.config.busAddr sl)[n]'(by rw [Plan.length_events]; exact hn.trans_le (Nat.le_add_right _ _))) := by
  have is_byte : n < (p.cmdEvents s.config.busAddr).length := by simpa using hn
  have held : State.heldAt (s.after s.slots ((p.cmdEvents s.config.busAddr).take n)) 0 :=
    State.heldAt_after _ _ (by simpa [Nat.min_eq_left hn.le] using h)
  have busy := (State.busWrite_of_heldAt (p.cmdEvents s.config.busAddr)[n] held).2.1
  simp only [Plan.events, List.take_append_of_le_length is_byte.le, List.getElem_append_left is_byte]
  rw [State.runPlan, State.foldl_cmdByte, ← Plan.cmdEvents, State.foldl_busWrite_of_heldAt is_byte h,
    State.setSlots_of_busy _ busy, State.foldl_flushSlot, State.foldl_busWrite_of_busy _ busy]

/-- Held up at a flush: the command bytes are sent and the slots changed. -/
theorem State.runPlan_of_heldAt_flush {s : State} {p : Plan} {n : Nat} (h : s.heldAt n) (hb : p.bytes.length ≤ n)
    (hn : n < p.writes) :
    s.runPlan p = (s.after (p.edit s.slots) ((p.events s.config.busAddr (p.edit s.slots)).take n)).busWrite
      ((p.events s.config.busAddr (p.edit s.slots))[n]'(by simpa using hn)) := by
  have bytes_answered : s.answered (p.cmdEvents s.config.busAddr).length := State.answered_mono (by simpa using hb) h.1
  have bytes_le : (p.cmdEvents s.config.busAddr).length ≤ n := by simpa using hb
  have held : (s.after (p.edit s.slots) (p.cmdEvents s.config.busAddr)).heldAt
      (n - (p.cmdEvents s.config.busAddr).length) :=
    State.heldAt_after _ _ (by rwa [Nat.add_sub_cancel' bytes_le])
  have is_flush : n - (p.cmdEvents s.config.busAddr).length <
      (p.slotEvents s.config.busAddr (p.edit s.slots)).length := by
    simp only [Plan.writes, Plan.length_cmdEvents, Plan.length_slotEvents] at hn ⊢
    omega
  simp only [Plan.events, List.take_append, List.take_of_length_le bytes_le, List.getElem_append_right bytes_le]
  rw [State.runPlan, State.foldl_cmdByte, ← Plan.cmdEvents, State.foldl_busWrite_of_answered bytes_answered,
    State.setSlots_after _ h.1.1, State.foldl_flushSlot, State.after_config, State.after_slots, ← Plan.slotEvents,
    State.foldl_busWrite_of_heldAt is_flush held, State.after_slots, State.after_after]

/-- A command held up at write `n`: the writes before it are made, that one stays unanswered, and nothing follows.  The
slots are changed, but for INIT held up at one of its command bytes. -/
theorem exec_of_heldAt {i : Instr} {s : State} {n : Nat} (h : s.heldAt n) {sl : Slots} {es : List BusEvent}
    (hsl : sl = (plan s.config i).edit s.slots) (hes : es = (plan s.config i).events s.config.busAddr sl)
    (hn : n < es.length) :
    exec i s = .next ((s.after (if i = .init ∧ n < 3 then s.slots else sl) (es.take n)).busWrite es[n]) := by
  subst hsl hes
  have hn' : n < (plan s.config i).writes := by simpa using hn
  rw [exec_eq_runPlan]
  by_cases hb : n < (plan s.config i).bytes.length
  · rw [State.runPlan_of_heldAt_byte h hb ((plan s.config i).edit s.slots)]
    by_cases init : i = .init
    · subst init
      rw [if_pos ⟨rfl, hb⟩]
    · have no_change : (plan s.config i).edit s.slots = s.slots := by
        rw [(plan_bytes_or_edit init s.config).resolve_left fun e => by simp [e] at hb]
        rfl
      simp only [no_change, ite_self]
  · have after_bytes : ¬(i = .init ∧ n < 3) := by
      rintro ⟨rfl, early⟩
      exact hb early
    rw [State.runPlan_of_heldAt_flush h (not_lt.mp hb) hn', if_neg after_bytes]

/-- Settles O49: the command is its first `n` writes and the held one, and the answered run beside it is the same
events, all of them. -/
theorem unansweredWriteStallsTheBlock : Obligations.UnansweredWriteStallsTheBlock := by
  intro i s n held hn
  obtain ⟨sl, hsl⟩ : ∃ sl, sl = (plan s.config i).edit s.slots := ⟨_, rfl⟩
  obtain ⟨es, hes⟩ : ∃ es, es = (plan s.config i).events s.config.busAddr sl := ⟨_, rfl⟩
  have hlen : n < es.length := by rwa [hes, Plan.length_events, plan_writes]
  have take_length : (es.take n).length = n := List.length_take_of_le hlen.le
  have held_now : State.heldAt (s.after (if i = .init ∧ n < 3 then s.slots else sl) (es.take n)) 0 :=
    State.heldAt_after _ _ (by rwa [take_length])
  obtain ⟨log, busy, chip⟩ := State.busWrite_of_heldAt es[n] held_now
  refine ⟨_, es.take n, es[n], exec_of_heldAt held hsl hes hlen, take_length, log, busy, chip,
    fun v w same answered run => ?_⟩
  have run' := exec_of_answered (State.answered_mono (busWrites_le i) answered)
  rw [← same.config, ← same.slots, ← hsl, ← hes] at run'
  obtain rfl := Host.Outcome.next.inj (run.symm.trans run')
  constructor
  · rw [log, State.after_busLog, State.after_busLog, same.busLog, List.append_assoc,
      ← List.take_succ_eq_append_getElem hlen]
    exact (List.prefix_append_right_inj _).mpr (List.take_prefix _ _)
  · simp only [State.busWrite_slots, State.after_slots]

end Sys2Proof.Machine
end

section
/-! PROOFS. The log, the buffer and the chip's copy (R31, R47, R52): what was last sent at each offset. -/

namespace Sys2Proof.Machine

/-! ## The last payload at an offset -/

theorem lastPayload_concat_cmdWrite (off : Byte) (log : List BusEvent) (a : BusAddr) (b : Byte) :
    lastPayload off (log ++ [.cmdWrite a b]) = lastPayload off log := by
  simp [lastPayload]

theorem lastPayload_concat_slotWrite (off : Byte) (log : List BusEvent) (a : BusAddr) (o lo hi : Byte) :
    lastPayload off (log ++ [.slotWrite a o lo hi]) = if o = off then some (lo, hi) else lastPayload off log := by
  simp [lastPayload]

theorem regOff_inj {i k : Fin 5} : regOff i = regOff k ↔ i = k := by revert i k; decide

theorem lastPayload_append_cmdEvents (off : Byte) (log : List BusEvent) (a : BusAddr) (p : Plan) :
    lastPayload off (log ++ p.cmdEvents a) = lastPayload off log := by
  rw [Plan.cmdEvents]
  induction p.bytes generalizing log with
  | nil => simp
  | cons b bs ih => rw [List.map_cons, List.append_cons, ih, lastPayload_concat_cmdWrite]

/-- After a plan's flushes, the last payload at a slot's offset is the slot's bytes if the slot was sent, and else the
earlier one. -/
theorem lastPayload_append_slotEvents (k : Fin 5) (log : List BusEvent) (a : BusAddr) (sl : Slots) (p : Plan) :
    lastPayload (regOff k) (log ++ p.slotEvents a sl) =
      if k ∈ p.sent then some (loByte sl[k], hiByte sl[k]) else lastPayload (regOff k) log := by
  rw [Plan.slotEvents]
  induction p.sent generalizing log with
  | nil => simp
  | cons i is ih =>
    rw [List.map_cons, List.append_cons, ih, lastPayload_concat_slotWrite]
    by_cases here : i = k
    · subst here
      simp
    · simp [regOff_inj, here, Ne.symm here]

theorem lastPayload_append_events (k : Fin 5) (log : List BusEvent) (a : BusAddr) (sl : Slots) (p : Plan) :
    lastPayload (regOff k) (log ++ p.events a sl) =
      if k ∈ p.sent then some (loByte sl[k], hiByte sl[k]) else lastPayload (regOff k) log := by
  rw [Plan.events, ← List.append_assoc, lastPayload_append_slotEvents, lastPayload_append_cmdEvents]

/-! ## The buffer mirrors the log -/

/-- An idle block's next `k` writes are all answered, or a first one of them is not. -/
theorem State.answered_or_heldAt {s : State} (idle : s.busy = false) (k : Nat) :
    s.answered k ∨ ∃ n < k, s.heldAt n := by
  induction k with
  | zero => exact .inl ⟨idle, by simp⟩
  | succ k ih =>
    rcases ih with answered | ⟨n, hn, held⟩
    · by_cases hk : s.answers[k]? = some .never
      · exact .inr ⟨k, Nat.lt_succ_self k, answered, hk⟩
      · refine .inl ⟨idle, fun a ha => ?_⟩
        rw [List.take_add_one] at ha
        rcases List.mem_append.mp ha with ha | ha
        · exact answered.2 a ha
        · rintro rfl
          exact hk (by simpa using ha)
    · exact .inr ⟨n, Nat.lt_succ_of_lt hn, held⟩

/-- A command that leaves the block idle has had all its writes answered (R233). -/
theorem answered_of_exec_idle {i : Instr} {s t : State} (idle : s.busy = false) (run : exec i s = .next t)
    (idle' : t.busy = false) : s.answered (busWrites i) := by
  refine (State.answered_or_heldAt idle _).resolve_right ?_
  rintro ⟨n, hn, held⟩
  obtain ⟨u, -, -, run', -, -, busy, -⟩ := unansweredWriteStallsTheBlock i s n held hn
  obtain rfl := Host.Outcome.next.inj (run.symm.trans run')
  exact Bool.false_ne_true (idle'.symm.trans busy)

theorem exec_mirrored {i : Instr} {s t : State} (idle : s.busy = false) (h : s.mirrored)
    (run : exec i s = .next t) : t.mirrored := by
  intro idle' k q hq
  have run' := exec_of_answered (answered_of_exec_idle idle run idle')
  obtain rfl := Host.Outcome.next.inj (run.symm.trans run')
  rw [State.after_busLog, lastPayload_append_events] at hq
  rw [State.after_slots]
  split at hq
  · exact (Option.some.inj hq).symm
  · next not_sent =>
    rw [plan_edit_of_not_sent not_sent]
    exact h idle k q hq

/-- Settles O42: a command that ends idle has sent every slot it changed; one that does not ends busy. -/
theorem logMirrorsTheBuffer : Obligations.LogMirrorsTheBuffer := by
  intro s t h hs
  rcases step_cases hs with rfl | ⟨rest, -, rfl⟩ | ⟨w, rest, -, idle, ⟨e, -, rfl⟩ | ⟨i, -, run⟩⟩
  · exact h
  · exact State.mirrored_of_nil rfl
  · exact h
  · exact exec_mirrored (s := { s with inputs := rest }) idle h run

/-! ## The chip mirrors the log -/

/-- The events that the block's commands are made of. -/
inductive BusEvent.Own : BusEvent → Prop
  | cmd (a : BusAddr) (b : Byte) : Own (.cmdWrite a b)
  | slot (a : BusAddr) (i : Fin 5) (lo hi : Byte) : Own (.slotWrite a (regOff i) lo hi)

theorem Plan.events_own {p : Plan} {a : BusAddr} {sl : Slots} {e : BusEvent} (he : e ∈ p.events a sl) : e.Own := by
  rcases List.mem_append.mp he with he | he
  · obtain ⟨b, -, rfl⟩ := List.mem_map.mp he
    exact .cmd a b
  · obtain ⟨i, -, rfl⟩ := List.mem_map.mp he
    exact .slot a i _ _

/-- The chip's registers hold the last slot write of a log at each offset: `State.chipMirrored`, said of the chip. -/
abbrev Chip.Mirrors (c : Chip) (log : List BusEvent) : Prop :=
  ∀ (i : Fin 5) (p : Byte × Byte), lastPayload (regOff i) log = some p →
    c.display.read (2 * i.val) = some p.1 ∧ c.display.read (2 * i.val + 1) = some p.2

/-- A slot write is read back at its two registers, and the registers of another slot are not touched. -/
theorem Chip.mirrors_take {c : Chip} {log : List BusEvent} {e : BusEvent} (own : e.Own) (h : c.Mirrors log) :
    (c.take e).Mirrors (log ++ [e]) := by
  intro k p hp
  cases own with
  | cmd a b =>
    rw [lastPayload_concat_cmdWrite] at hp
    rw [Chip.take_cmdWrite_display]
    exact h k p hp
  | slot a i lo hi =>
    simp only [lastPayload_concat_slotWrite, regOff_inj] at hp
    rw [Chip.read_take_slotWrite, Chip.read_take_slotWrite, regOff_toNat]
    split at hp
    · next here =>
      subst here
      cases hp
      simp
    · next other =>
      have : i.val ≠ k.val := fun e => other (Fin.ext e)
      rw [if_neg (by omega), if_neg (by omega), if_neg (by omega), if_neg (by omega)]
      exact h k p hp

theorem Chip.mirrors_foldl_take {es : List BusEvent} (own : ∀ e ∈ es, e.Own) {c : Chip} {log : List BusEvent}
    (h : c.Mirrors log) : (es.foldl (fun c e => c.take e) c).Mirrors (log ++ es) := by
  induction es generalizing c log with
  | nil => simpa using h
  | cons e es ih =>
    obtain ⟨own_e, own_es⟩ := List.forall_mem_cons.mp own
    rw [List.append_cons]
    exact ih own_es (Chip.mirrors_take own_e h)

/-- Writes that are performed are all taken. -/
theorem Chip.afterWrites_of_performed (n : Nat) {as : List Answer} {es : List BusEvent} (c : Chip)
    (hlen : es.length ≤ as.length) (h : ∀ a ∈ as.take es.length, a = .ok) :
    Chip.afterWrites n as es c = es.foldl (fun c e => c.take e) c := by
  induction es generalizing n as c with
  | nil => rfl
  | cons e es ih =>
    cases as with
    | nil => simp at hlen
    | cons a as =>
      obtain ⟨rfl, performed⟩ : a = .ok ∧ ∀ a ∈ as.take es.length, a = .ok := by simpa using h
      exact ih (n + 1) (c.take e) (by simpa using hlen) performed

theorem State.performed_mono {s : State} {m n : Nat} (hmn : m ≤ n) (h : s.performed n) : s.performed m :=
  ⟨hmn.trans h.1, fun a ha => h.2 a ((List.take_sublist_take_left hmn).mem ha)⟩

/-- A command whose writes are all performed: the chip takes all its events, so it goes on mirroring what it mirrored,
with them. -/
theorem exec_mirrors_of_performed {i : Instr} {s t : State} {log : List BusEvent} (idle : s.busy = false)
    (performed : s.performed (busWrites i)) (run : exec i s = .next t) (h : s.chip.Mirrors log) :
    ∃ es, es = (plan s.config i).events s.config.busAddr t.slots ∧ t.busLog = s.busLog ++ es ∧
      t.chip.Mirrors (log ++ es) := by
  have run' := exec_of_answered (State.answered_of_performed idle performed)
  obtain rfl := Host.Outcome.next.inj (run.symm.trans run')
  obtain ⟨enough, all_ok⟩ := performed
  rw [← plan_writes s.config i] at enough all_ok
  refine ⟨_, rfl, rfl, ?_⟩
  rw [State.after_chip, Chip.afterWrites_of_performed _ _ (by rwa [Plan.length_events]) (by rwa [Plan.length_events])]
  exact Chip.mirrors_foldl_take (fun _ => Plan.events_own) h

theorem exec_chipMirrored {i : Instr} {s t : State} (idle : s.busy = false) (performed : s.performed 8)
    (h : s.chipMirrored) (run : exec i s = .next t) : t.chipMirrored := by
  obtain ⟨es, -, log, mirrors⟩ :=
    exec_mirrors_of_performed idle (State.performed_mono (busWrites_le i) performed) run h
  rwa [← log] at mirrors

/-- Settles O43: each event of a command is taken as it is logged. -/
theorem chipHoldsWhatWasLastSent : Obligations.ChipHoldsWhatWasLastSent := by
  intro s t performed h hs
  rcases step_cases hs with rfl | ⟨rest, -, rfl⟩ | ⟨w, rest, -, idle, ⟨e, -, rfl⟩ | ⟨i, -, run⟩⟩
  · exact h
  · exact State.chipMirrored_of_nil rfl
  · exact h
  · exact exec_chipMirrored (s := { s with inputs := rest }) idle performed h run

/-- A slot that a command sends, every write performed, stands in the chip's two registers (R52). -/
theorem read_sent_of_performed {i : Instr} {s t : State} {k : Fin 5} (idle : s.busy = false)
    (performed : s.performed (busWrites i)) (sent : k ∈ (plan s.config i).sent) (run : exec i s = .next t) :
    t.chip.display.read (2 * k.val) = some (loByte t.slots[k]) ∧
    t.chip.display.read (2 * k.val + 1) = some (hiByte t.slots[k]) := by
  have nothing_sent : s.chip.Mirrors [] := fun _ _ hp => nomatch hp
  obtain ⟨es, rfl, -, mirrors⟩ := exec_mirrors_of_performed idle performed run nothing_sent
  exact mirrors k _ ((lastPayload_append_events ..).trans (if_pos sent))

end Sys2Proof.Machine
end

section
/-! PROOFS. Frames (R31, R33, R46): what a command leaves alone of the slots and of the chip, whatever the answers. -/

namespace Sys2Proof.Machine

theorem exec_of_ignored {i : Instr} (s : State) (h : i.wellFormed = false) : exec i s = .next s := by
  rw [exec_eq_runPlan, plan_of_ignored s.config h, State.runPlan_nothing]

/-! ## Which slots a command sends -/

theorem sent_of_setseg {c : Config} {idx code : Byte} {dot : Bool} {k : Fin 5}
    (hk : k ∈ (plan c (.setseg idx code dot)).sent) :
    k.val = if 2 ≤ idx.toNat then idx.toNat + 1 else idx.toNat := by
  simp only [plan] at hk
  split at hk
  · rw [List.mem_singleton.mp hk, phys_val]
  · exact absurd hk List.not_mem_nil

theorem sent_of_showdigit {c : Config} {idx : Byte} {val : BitVec 16} {dot : Bool} {k : Fin 5}
    (hk : k ∈ (plan c (.showdigit idx val dot)).sent) :
    k.val = if 2 ≤ idx.toNat then idx.toNat + 1 else idx.toNat := by
  simp only [plan] at hk
  split at hk
  · split at hk
    · rw [List.mem_singleton.mp hk, phys_val]
    · exact absurd hk List.not_mem_nil
  · exact absurd hk List.not_mem_nil

theorem plan_shownum_bytes (c : Config) (V : ValueField) (base : Base) (frac : BitVec 3) :
    (plan c (.shownum V base frac)).bytes = [] := by
  simp only [plan]
  split
  · rfl
  · split <;> rfl

theorem plan_shownum_sent (c : Config) (V : ValueField) (base : Base) {frac : BitVec 3} (h : frac.toNat ≤ 4) :
    (plan c (.shownum V base frac)).sent = physIndices := by
  simp only [plan, if_neg (not_lt.mpr h)]
  split <;> rfl

/-! ## Slots -/

/-- A slot that the change leaves alone keeps its word. -/
theorem State.runPlan_slot {p : Plan} {k : Fin 5} (h : ∀ sl : Slots, (p.edit sl)[k] = sl[k]) (s : State) :
    (s.runPlan p).slots[k] = s.slots[k] := by
  refine State.runPlan_keeps (I := fun t => t.slots[k] = s.slots[k]) (fun t b _ ht => ?_) (fun t ht => ?_)
    (fun t i _ ht => ?_) rfl
  · rwa [State.cmdByte, State.busWrite_slots]
  · rw [State.setSlots_slots]
    split
    · exact ht
    · exact (h _).trans ht
  · rwa [State.flushSlot_slots]

theorem exec_slot_of_not_sent {i : Instr} {s t : State} {k : Fin 5} (run : exec i s = .next t)
    (hk : k ∉ (plan s.config i).sent) : t.slots[k] = s.slots[k] := by
  obtain rfl := Host.Outcome.next.inj ((exec_eq_runPlan i s).symm.trans run)
  exact State.runPlan_slot (plan_edit_of_not_sent hk) s

theorem Slots.ext {sl sl' : Slots} (h : ∀ k : Fin 5, sl[k] = sl'[k]) : sl = sl' :=
  Vector.ext fun k hk => h ⟨k, hk⟩

theorem exec_slots_of_no_edit {i : Instr} {s t : State} (run : exec i s = .next t)
    (h : (plan s.config i).edit = id) : t.slots = s.slots := by
  obtain rfl := Host.Outcome.next.inj ((exec_eq_runPlan i s).symm.trans run)
  exact Slots.ext fun k => State.runPlan_slot (fun sl => by rw [h]; rfl) s

theorem keptByBlocks_inputs (xs : List HostInput) : KeptByBlocks (·.inputs = xs) where
  cmdByte _ _ _ h := (State.busWrite_inputs _ _).trans h
  flushSlot _ _ h := (State.busWrite_inputs _ _).trans h
  setSlots _ _ _ h := (State.setSlots_inputs _ _).trans h

theorem State.busLog_isPrefix_busWrite (e : BusEvent) (s : State) : s.busLog <+: (s.busWrite e).busLog := by
  rw [State.busWrite_busLog]
  split
  · exact List.prefix_rfl
  · exact List.prefix_append _ _

theorem keptByBlocks_busLog (log : List BusEvent) : KeptByBlocks (log <+: ·.busLog) where
  cmdByte _ _ _ h := h.trans (State.busLog_isPrefix_busWrite _ _)
  flushSlot _ _ h := h.trans (State.busLog_isPrefix_busWrite _ _)
  setSlots _ _ _ h := by rwa [State.setSlots_busLog]

/-- Settles O56: a slot that is not sent is not changed; FLUSHALL and the two settings change none; and no building
block writes the parameters or the host's list, or removes an event. -/
theorem commandsChangeOnlyTheirSlots : Obligations.CommandsChangeOnlyTheirSlots := by
  intro s t i run
  refine ⟨?_, ?_, ?_, (keptByBlocks_config _).exec run rfl, (keptByBlocks_inputs _).exec run rfl,
    (keptByBlocks_busLog _).exec run List.prefix_rfl⟩
  · rintro (rfl | ⟨rate, rfl⟩ | ⟨level, rfl⟩) <;> exact exec_slots_of_no_edit run rfl
  · rintro ⟨on, rfl⟩ k hk
    exact exec_slot_of_not_sent run fun sent => hk (List.mem_singleton.mp sent)
  · rintro idx (⟨code, dot, rfl⟩ | ⟨val, dot, rfl⟩) k hk
    · exact exec_slot_of_not_sent run fun sent => hk (sent_of_setseg sent)
    · exact exec_slot_of_not_sent run fun sent => hk (sent_of_showdigit sent)

/-! ## The chip -/

/-- What the writes of a plan keep of the chip, each taken or not, the run keeps. -/
theorem State.runPlan_chip_keeps {P : Chip → Prop} {p : Plan}
    (cmd : ∀ (c : Chip) (a : BusAddr), ∀ b ∈ p.bytes, P c → P (c.take (.cmdWrite a b)))
    (slot : ∀ (c : Chip) (a : BusAddr), ∀ i ∈ p.sent, ∀ lo hi : Byte, P c → P (c.take (.slotWrite a (regOff i) lo hi)))
    {s : State} (h : P s.chip) : P (s.runPlan p).chip :=
  State.runPlan_keeps (I := fun t => P t.chip) (fun _ _ hb ht => State.busWrite_chip_keeps ht (cmd _ _ _ hb ht))
    (fun _ ht => by rwa [State.setSlots_chip])
    (fun _ _ hi ht => State.busWrite_chip_keeps ht (slot _ _ _ hi _ _ ht)) h

/-- A command without command bytes leaves the settings alone. -/
theorem exec_settings_of_no_bytes {i : Instr} {s t : State} (run : exec i s = .next t)
    (h : (plan s.config i).bytes = []) : t.chip.settings = s.chip.settings := by
  obtain rfl := Host.Outcome.next.inj ((exec_eq_runPlan i s).symm.trans run)
  refine State.runPlan_chip_keeps (P := fun c => c.settings = s.chip.settings) (fun _ _ b hb _ => ?_)
    (fun _ _ _ _ _ _ hc => hc) rfl
  rw [h] at hb
  exact absurd hb List.not_mem_nil

/-- A register that is none of those of the slots sent is left alone. -/
theorem exec_read_of_not_sent {i : Instr} {s t : State} {x : Nat} (run : exec i s = .next t)
    (hx : ∀ k ∈ (plan s.config i).sent, x ≠ 2 * k.val ∧ x ≠ 2 * k.val + 1) :
    t.chip.display.read x = s.chip.display.read x := by
  obtain rfl := Host.Outcome.next.inj ((exec_eq_runPlan i s).symm.trans run)
  refine State.runPlan_chip_keeps (P := fun c => c.display.read x = s.chip.display.read x) (fun c a b _ hc => ?_)
    (fun c a k hk lo hi hc => ?_) rfl
  · rwa [Chip.take_cmdWrite_display]
  · obtain ⟨not_even, not_odd⟩ := hx k hk
    rwa [Chip.read_take_slotWrite, regOff_toNat, if_neg not_odd, if_neg not_even]

/-- The five commands that end in a full flush (R94). -/
theorem sent_of_fullFlush (c : Config) {i : Instr} (h : i = .init ∨ i = .clear ∨ i = .flushall ∨ i = .showerr ∨
    ∃ V base frac, i = .shownum V base frac ∧ frac.toNat ≤ 4) : (plan c i).sent = physIndices := by
  rcases h with rfl | rfl | rfl | rfl | ⟨V, base, frac, rfl, admitted⟩
  · rfl
  · rfl
  · rfl
  · rfl
  · exact plan_shownum_sent c V base admitted

/-- Settles O51: a full flush sends every slot. -/
theorem fullFlushReachesTheChip : Obligations.FullFlushReachesTheChip := by
  intro i s idle performed flushes
  obtain ⟨t, run⟩ := exec_next i s
  refine ⟨t, run, fun k => read_sent_of_performed idle (State.performed_mono (busWrites_le i) performed) ?_ run⟩
  rw [sent_of_fullFlush s.config flushes]
  exact mem_physIndices k

/-- Settles O53: the registers of the five slots are the offsets 0 to 9, and only INIT sends command bytes. -/
theorem fullFlushWritesOffsetsZeroToNineOnly : Obligations.FullFlushWritesOffsetsZeroToNineOnly := by
  intro s t i flushes run
  refine ⟨fun x hx => exec_read_of_not_sent run fun k _ => ⟨by omega, by omega⟩, fun not_init => ?_, fun ignored => ?_⟩
  · refine exec_settings_of_no_bytes run ?_
    rcases flushes with rfl | rfl | rfl | rfl | ⟨V, base, frac, rfl⟩
    · exact absurd rfl not_init
    · rfl
    · rfl
    · rfl
    · exact plan_shownum_bytes _ V base frac
  · rw [Host.Outcome.next.inj ((exec_of_ignored s ignored).symm.trans run)]

/-- The plan of a command that sends one slot: the slot past the colon, or the colon. -/
theorem plan_eq_oneSlot (cfg : Config) {c : Instr} {i : Fin 5}
    (h : (∃ idx code dot, c = .setseg idx code dot ∧ idx.toNat < 4 ∧
        i.val = (if 2 ≤ idx.toNat then idx.toNat + 1 else idx.toNat)) ∨
      (∃ idx val dot, c = .showdigit idx val dot ∧ idx.toNat < 4 ∧ val.toNat < 16 ∧
        i.val = (if 2 ≤ idx.toNat then idx.toNat + 1 else idx.toNat)) ∨
      ∃ on, c = .showcolon on ∧ i = 2) : ∃ b, plan cfg c = .oneSlot i b := by
  rcases h with ⟨idx, code, dot, rfl, hi, i_val⟩ | ⟨idx, val, dot, rfl, hi, hv, i_val⟩ | ⟨on, rfl, rfl⟩
  · obtain rfl : i = phys ⟨idx.toNat, hi⟩ := Fin.ext i_val
    exact ⟨_, dif_pos hi⟩
  · obtain rfl : i = phys ⟨idx.toNat, hi⟩ := Fin.ext i_val
    exact ⟨_, (dif_pos hi).trans (dif_pos hv)⟩
  · exact ⟨_, rfl⟩

/-- Settles O52: the command is one slot stored and sent alone. -/
theorem oneSlotCommandsReachOnlyTheirRegisters : Obligations.OneSlotCommandsReachOnlyTheirRegisters := by
  intro s t c i kind run
  obtain ⟨b, plan_eq⟩ := plan_eq_oneSlot s.config kind
  refine ⟨fun x not_even not_odd => exec_read_of_not_sent run fun k sent => ?_,
    exec_settings_of_no_bytes run (by rw [plan_eq]; rfl), fun idle performed => ?_⟩
  · rw [plan_eq] at sent
    obtain rfl : k = i := List.mem_singleton.mp sent
    exact ⟨not_even, not_odd⟩
  · have one_write : busWrites c = 1 := by rw [← plan_writes s.config, plan_eq]; rfl
    refine read_sent_of_performed idle (one_write ▸ performed) ?_ run
    rw [plan_eq]
    exact List.mem_singleton.mpr rfl

/-! ## The settings -/

theorem settingKey?_blinkByte (rate : BitVec 2) : settingKey? (blinkByte rate) = some 0x80 := by revert rate; decide

theorem settingKey?_brightByte (level : BitVec 4) : settingKey? (brightByte level) = some 0xE0 := by
  revert level; decide

@[simp] theorem State.cmdByte_display (b : Byte) (s : State) : (s.cmdByte b).chip.display = s.chip.display :=
  State.busWrite_chip_keeps (P := fun c => c.display = s.chip.display) rfl (Chip.take_cmdWrite_display ..)

/-- A command byte, taken or not, leaves every setting alone but the one it names. -/
theorem State.read_cmdByte_other {b : Byte} {k a : Nat} (key : settingKey? b = some k) (ha : a ≠ k) (s : State) :
    (s.cmdByte b).chip.settings.read a = s.chip.settings.read a := by
  refine State.busWrite_chip_keeps (P := fun c => c.settings.read a = s.chip.settings.read a) rfl ?_
  rw [Chip.take_cmdWrite_settings _ _ key, Memory.read_write_other _ _ ha]

theorem State.nextPerformed_of_performed {s : State} {n : Nat} (h : s.performed (n + 1)) : s.nextPerformed = true := by
  obtain ⟨enough, all_ok⟩ := h
  match ha : s.answers with
  | [] => simp [ha] at enough
  | a :: as =>
    obtain rfl : a = .ok := all_ok a (by simp [ha])
    simp [State.nextPerformed, ha]

/-- A performed command byte is the setting it names. -/
theorem State.read_cmdByte_self {b : Byte} {k n : Nat} (key : settingKey? b = some k) {s : State}
    (idle : s.busy = false) (performed : s.performed (n + 1)) : (s.cmdByte b).chip.settings.read k = some b := by
  rw [State.cmdByte, State.busWrite_chip, if_pos ⟨idle, State.nextPerformed_of_performed performed⟩,
    Chip.take_cmdWrite_settings _ _ key, Memory.read_write_self]

theorem State.cmdByte_idle_performed {s : State} {n : Nat} (b : Byte) (idle : s.busy = false)
    (performed : s.performed (n + 1)) : (s.cmdByte b).busy = false ∧ (s.cmdByte b).performed n := by
  have answered : s.answered 1 := State.answered_mono (by omega) (State.answered_of_performed idle performed)
  obtain ⟨enough, all_ok⟩ := performed
  rw [State.cmdByte_of_answered b answered]
  refine ⟨idle, by simp; omega, fun a ha => all_ok a ?_⟩
  rw [State.after_answers, List.take_drop] at ha
  exact List.mem_of_mem_drop (Nat.add_comm 1 n ▸ ha)

@[simp] theorem State.flushSlot_settings (i : Fin 5) (s : State) : (s.flushSlot i).chip.settings = s.chip.settings :=
  State.busWrite_chip_keeps (P := fun c => c.settings = s.chip.settings) rfl rfl

@[simp] theorem State.flushAll_settings (s : State) : s.flushAll.chip.settings = s.chip.settings := by
  simp [State.flushAll, physIndices]

/-- The settings that INIT leaves are those its three command bytes leave: the clear sets none. -/
theorem exec_init_settings {s t : State} (run : exec .init s = .next t) :
    t.chip.settings = (((s.cmdByte oscOn).cmdByte (blinkByte 0)).cmdByte (brightByte initBright)).chip.settings := by
  cases run
  rw [initCmd, State.flushAll_settings, State.fillSlots, State.setSlots_chip]

theorem settingKey?_oscOn : settingKey? oscOn = some 0x21 := rfl

theorem exec_init_read_other {s t : State} (run : exec .init s = .next t) {a : Nat} (h21 : a ≠ 0x21) (h80 : a ≠ 0x80)
    (hE0 : a ≠ 0xE0) : t.chip.settings.read a = s.chip.settings.read a := by
  rw [exec_init_settings run, State.read_cmdByte_other (settingKey?_brightByte _) hE0,
    State.read_cmdByte_other (settingKey?_blinkByte _) h80, State.read_cmdByte_other settingKey?_oscOn h21]

/-- Each of INIT's command bytes sets its own setting, and the later ones leave it alone. -/
theorem exec_init_read_settings {s t : State} (run : exec .init s = .next t) (idle : s.busy = false)
    (performed : s.performed 3) :
    t.chip.settings.read 0x21 = some oscOn ∧ t.chip.settings.read 0x80 = some (blinkByte 0) ∧
    t.chip.settings.read 0xE0 = some (brightByte initBright) := by
  obtain ⟨idle₁, performed₁⟩ := State.cmdByte_idle_performed oscOn idle performed
  obtain ⟨idle₂, performed₂⟩ := State.cmdByte_idle_performed (blinkByte 0) idle₁ performed₁
  rw [exec_init_settings run]
  refine ⟨?_, ?_, State.read_cmdByte_self (settingKey?_brightByte _) idle₂ performed₂⟩
  · rw [State.read_cmdByte_other (settingKey?_brightByte _) (by decide),
      State.read_cmdByte_other (settingKey?_blinkByte _) (by decide),
      State.read_cmdByte_self settingKey?_oscOn idle performed]
  · rw [State.read_cmdByte_other (settingKey?_brightByte _) (by decide),
      State.read_cmdByte_self (settingKey?_blinkByte _) idle₁ performed₁]

/-- Settles O54: each command byte names one key, and is what is written there. -/
theorem settingsFollowTheCommandBytes : Obligations.SettingsFollowTheCommandBytes := by
  refine ⟨fun s t rate run => ?_, fun s t level run => ?_, fun s t run =>
    ⟨fun a => exec_init_read_other run, exec_init_read_settings run⟩⟩
  · obtain rfl := Host.Outcome.next.inj ((exec_setblink rate s).symm.trans run)
    refine ⟨State.cmdByte_display _ _, fun a ha => State.read_cmdByte_other (settingKey?_blinkByte rate) ha s,
      fun idle performed => ?_⟩
    rw [State.read_cmdByte_self (settingKey?_blinkByte rate) idle performed, blinkByte_eq_add]
  · obtain rfl := Host.Outcome.next.inj ((exec_setbright level s).symm.trans run)
    refine ⟨State.cmdByte_display _ _, fun a ha => State.read_cmdByte_other (settingKey?_brightByte level) ha s,
      fun idle performed => ?_⟩
    rw [State.read_cmdByte_self (settingKey?_brightByte level) idle performed, brightByte_eq_add]

end Sys2Proof.Machine
end

section
/-! PROOFS. The render in closed form (R136 to R147).  Its three loops write one word after the other at the digit
positions from the right, so together they paint `renderedWord` over the digit slots. -/

namespace Sys2Proof.Machine

/-! ## Rounding -/

/-- The printed integer is the floor of `sv` (R137). -/
theorem printedInt_eq_floor (V : ValueField) (b F : Nat) :
    (printedInt (magnitude V) b F : ℤ) = ⌊|valueOf V| * (b : ℚ) ^ F + 1 / 2⌋ := by
  rw [scaled_eq, printedInt]
  exact_mod_cast (Rat.floor_natCast_div_natCast (scaled (magnitude V) b F) 65536).symm

/-- Settles O29: the integer division by 65536 is the floor of the rational in units of 1/65536. -/
theorem printedIntegerRoundsHalfUp : Obligations.PrintedIntegerRoundsHalfUp := printedInt_eq_floor

theorem printedInt_eq_finalN (V : ValueField) (b F : Nat) : printedInt (magnitude V) b F = finalN (valueOf V) b F := by
  rw [finalN, ← Int.floor_toNat, ← printedInt_eq_floor, Int.toNat_natCast]

/-- A value that fits has no more digits than slots are available to it (R133, R141). -/
theorem finalN_lt_of_fits {v : ℚ} {b F : Nat} (h : fitsAt v b F) : finalN v b F < b ^ (if v < 0 then 3 else 4) := by
  have sv_nonneg : 0 ≤ |v| * (b : ℚ) ^ F + 1 / 2 := by positivity
  rw [finalN, Nat.floor_lt sv_nonneg]
  push_cast
  exact h

/-! ## Positions from the right -/

/-- The position of digit `j` from the right (R95, R147); negative from `j = 4` on. -/
def posAt (j : Nat) : Int := prevPos^[j] 4

@[simp] theorem posAt_zero : posAt 0 = 4 := rfl

theorem posAt_succ (j : Nat) : posAt (j + 1) = prevPos (posAt j) := Function.iterate_succ_apply' ..

theorem posAt_digitPos (j : Fin 4) : posAt j = (digitPos j).val := by revert j; decide

theorem posAt_neg {j : Nat} (h : 4 ≤ j) : posAt j < 0 := by
  induction j, h using Nat.le_induction with
  | base => decide
  | succ j _ ih =>
    rw [posAt_succ, prevPos_of_ne (by omega)]
    omega

theorem posAt_nonneg_iff (j : Nat) : 0 ≤ posAt j ↔ j < 4 := by
  constructor
  · intro h
    by_contra hj
    exact absurd (posAt_neg (not_lt.mp hj)) (not_lt.mpr h)
  · intro h
    rw [posAt_digitPos ⟨j, h⟩]
    exact Int.natCast_nonneg _

theorem digitPos_inj {j k : Fin 4} : digitPos j = digitPos k ↔ j = k := by revert j k; decide

/-- A write at position `j` from the right changes the digit slot `j`, if there is one, and no other. -/
theorem writePos_posAt (j : Nat) (w : Word) (sl : Slots) (m : Fin 4) :
    (writePos (posAt j) w sl)[digitPos m] = if j = m then w else sl[digitPos m] := by
  by_cases hj : j < 4
  · obtain ⟨j', rfl⟩ : ∃ j' : Fin 4, j'.val = j := ⟨⟨j, hj⟩, rfl⟩
    rw [posAt_digitPos, writePos, if_pos (Int.natCast_nonneg _), Int.toNat_natCast, Fin.getElem_fin,
      Vector.getElem_setIfInBounds]
    simp only [← Fin.ext_iff, digitPos_inj]
    rfl
  · have discarded : writePos (posAt j) w sl = sl := if_neg (by rw [posAt_nonneg_iff]; exact hj)
    rw [discarded, if_neg (by omega)]

/-! ## Painting -/

/-- The slots after the words `w j, w (j + 1), …`, `k` of them, at the positions `j, j + 1, …` from the right. -/
def paint (w : Nat → Word) : Nat → Nat → Slots → Slots
  | 0, _, sl => sl
  | k + 1, j, sl => paint w k (j + 1) (writePos (posAt j) (w j) sl)

theorem paint_get (w : Nat → Word) (k j : Nat) (sl : Slots) (m : Fin 4) :
    (paint w k j sl)[digitPos m] = if j ≤ m ∧ m < j + k then w m else sl[digitPos m] := by
  induction k generalizing j sl with
  | zero => rw [if_neg (by omega)]; rfl
  | succ k ih =>
    rw [paint, ih, writePos_posAt]
    by_cases here : j = m
    · subst here
      simp
    · by_cases inside : j + 1 ≤ m ∧ m < j + 1 + k
      · rw [if_pos inside, if_pos (by omega)]
      · rw [if_neg inside, if_neg here, if_neg (by omega)]

theorem paint_paint (w : Nat → Word) (k l j : Nat) (sl : Slots) :
    paint w l (j + k) (paint w k j sl) = paint w (k + l) j sl := by
  induction k generalizing j sl with
  | zero => rw [Nat.zero_add]; rfl
  | succ k ih =>
    rw [Nat.succ_add, paint, paint, ← ih]
    congr 1
    omega

theorem paint_paint_zero (w : Nat → Word) (k l : Nat) (sl : Slots) :
    paint w l k (paint w k 0 sl) = paint w (k + l) 0 sl := by
  simpa using paint_paint w k l 0 sl

/-! ## The words of the closed form -/

theorem renderedWord_digit (c : Config) (neg : Bool) {b F n j : Nat} (h : j < digitCount b F n) :
    renderedWord c neg b F n j = zext16 (segEnc c (digitOf (n / b ^ j % b)) (F ≠ 0 ∧ j = F)) := by
  simp only [renderedWord, if_pos h, segEnc, dotBit_eq, decide_eq_true_eq]

theorem renderedWord_sign (c : Config) (b F n : Nat) :
    renderedWord c true b F n (digitCount b F n) = zext16 dash := by
  simp only [renderedWord, lt_irrefl, if_false, and_self, if_true]
  rfl

theorem renderedWord_blank (c : Config) (neg : Bool) {b F n j : Nat} (h : digitCount b F n + neg.toNat ≤ j) :
    renderedWord c neg b F n j = zext16 blank := by
  have not_sign : ¬(neg = true ∧ j = digitCount b F n) := by
    rintro ⟨rfl, rfl⟩
    simp at h
  simp only [renderedWord, if_neg (show ¬ j < digitCount b F n by omega), if_neg not_sign]
  rfl

/-- Whether the digit loop goes on after digit `i` (R138): as long as there are digits left of the count (R140). -/
theorem emit_continues_iff {b : Nat} (hb : 1 < b) (F n i : Nat) :
    (i + 1 ≤ F ∨ 0 < n / b ^ (i + 1)) ↔ i + 1 < digitCount b F n := by
  rw [digitCount, lt_max_iff, Nat.lt_digits_length_iff hb, Nat.div_pos_iff]
  have : 0 < b ^ (i + 1) := Nat.pow_pos (by omega)
  omega

/-! ## The three loops -/

/-- The digit loop paints the digits from the right, and stops past the last (R138 to R140). -/
theorem emitDigits_eq_paint (c : Config) (neg : Bool) {b F n : Nat} (hb : 1 < b) {fuel i : Nat} (sl : Slots)
    (hi : i < digitCount b F n) (hfuel : digitCount b F n ≤ i + fuel) :
    emitDigits c b F fuel (n / b ^ i) (posAt i) i sl =
      (posAt (digitCount b F n), paint (renderedWord c neg b F n) (digitCount b F n - i) i sl) := by
  induction fuel generalizing i sl with
  | zero => omega
  | succ fuel ih =>
    simp only [emitDigits, ← renderedWord_digit c neg hi, Nat.div_div_eq_div_mul, ← pow_succ, ← posAt_succ,
      emit_continues_iff hb]
    split
    · next more =>
      rw [ih _ more (by omega), show digitCount b F n - i = digitCount b F n - (i + 1) + 1 by omega]
      rfl
    · next last =>
      rw [show digitCount b F n = i + 1 by omega, Nat.add_sub_cancel_left]
      rfl

/-- The sign is one more word, if there is one (R142). -/
theorem emitSign_eq_paint (c : Config) (neg : Bool) (b F n : Nat) (sl : Slots) :
    emitSign neg (posAt (digitCount b F n)) sl =
      (posAt (digitCount b F n + neg.toNat), paint (renderedWord c neg b F n) neg.toNat (digitCount b F n) sl) := by
  cases neg with
  | false => rfl
  | true =>
    rw [emitSign, ← renderedWord_sign c b F n, if_pos rfl, ← posAt_succ]
    rfl

/-- The leading clear paints blanks up to the last digit slot (R143). -/
theorem clearLeading_eq_paint {w : Nat → Word} {fuel j : Nat} (sl : Slots) (hfuel : 4 ≤ j + fuel)
    (hw : ∀ m ≥ j, w m = zext16 blank) : clearLeading fuel (posAt j) sl = paint w (4 - j) j sl := by
  induction fuel generalizing j sl with
  | zero => rw [show 4 - j = 0 by omega]; rfl
  | succ fuel ih =>
    simp only [clearLeading, posAt_nonneg_iff]
    split
    · next inside =>
      rw [← posAt_succ, ih _ (by omega) fun m hm => hw m (by omega), ← hw j le_rfl,
        show 4 - j = 4 - (j + 1) + 1 by omega]
      rfl
    · next outside => rw [show 4 - j = 0 by omega]; rfl

/-- The render is one painting, over all four digit slots. -/
theorem renderSlots_eq_paint (c : Config) (neg : Bool) {b F n : Nat} (hb : 1 < b) (hF : F ≤ 4) (hn : n < b ^ 4)
    (sl : Slots) : ∃ k ≥ 4, renderSlots c b neg F n sl = paint (renderedWord c neg b F n) k 0 sl := by
  have ndig_le : (Nat.digits b n).length ≤ 4 := (Nat.digits_length_le_iff hb n).mpr hn
  have count_pos : 0 < digitCount b F n := (Nat.succ_pos F).trans_le (le_max_left ..)
  have count_le : digitCount b F n ≤ 5 := max_le (by omega) (by omega)
  have digits :
      emitDigits c b F 5 n 4 0 sl =
        (posAt (digitCount b F n), paint (renderedWord c neg b F n) (digitCount b F n) 0 sl) := by
    simpa using emitDigits_eq_paint c neg hb (fuel := 5) sl count_pos (by omega)
  refine ⟨digitCount b F n + neg.toNat + (4 - (digitCount b F n + neg.toNat)), by omega, ?_⟩
  simp only [renderSlots, digits, emitSign_eq_paint c]
  rw [clearLeading_eq_paint (w := renderedWord c neg b F n) _ (by omega) fun m hm => renderedWord_blank c neg hm,
    paint_paint_zero, paint_paint_zero]

/-- The digit slots after a render, whatever they were before it (R147). -/
theorem renderSlots_digitPos (c : Config) (neg : Bool) {b F n : Nat} (hb : 1 < b) (hF : F ≤ 4) (hn : n < b ^ 4)
    (sl : Slots) (m : Fin 4) :
    (renderSlots c b neg F n sl)[digitPos m] = renderedWord c neg b F n m := by
  obtain ⟨k, hk, painted⟩ := renderSlots_eq_paint c neg hb hF hn sl
  rw [painted, paint_get, if_pos ⟨Nat.zero_le _, by omega⟩]

/-! ## SHOWNUM of a value that fits -/

theorem isNeg_eq (V : ValueField) : isNeg V = decide (valueOf V < 0) := by
  rw [Bool.eq_iff_iff, decide_eq_true_eq, valueOf_neg_iff]

/-- `Done` is the label of a value that fits, under an admitted `frac` (R193). -/
theorem labelOf_shownum_eq_done_iff (V : ValueField) (base : Base) (frac : BitVec 3) (s : State) :
    labelOf (.shownum V base frac) s = .done ↔
      frac.toNat ≤ 4 ∧ fitsAt (valueOf V) base.radix (finalF (valueOf V) base.radix frac.toNat) := by
  rw [labelOf_shownum]
  rcases showNum_cases V base frac s with ⟨reserved, e⟩ | ⟨admitted, fits, e⟩ | ⟨-, overflows, e⟩ <;> rw [e]
  · exact iff_of_false nofun fun h => absurd h.1 (not_le.mpr reserved)
  · exact iff_of_true rfl ⟨admitted, fits⟩
  · exact iff_of_false nofun fun h => overflows h.2

theorem renderedSlots_digitPos (c : Config) (v : ℚ) (b frac : Nat) (sl : Slots) (j : Fin 4) :
    (renderedSlots c v b frac sl)[digitPos j] =
      renderedWord c (v < 0) b (finalF v b frac) (finalN v b (finalF v b frac)) j := by
  match j with
  | 0 | 1 | 2 | 3 => rfl

theorem eq_colon_or_digitPos (k : Fin 5) : k = 2 ∨ ∃ j, k = digitPos j := by revert k; decide

/-- The render's loops leave the closed form of R147. -/
theorem renderSlots_eq_renderedSlots (c : Config) {V : ValueField} {base : Base} {frac : Nat} (admitted : frac ≤ 4)
    (fits : fitsAt (valueOf V) base.radix (finalF (valueOf V) base.radix frac)) (sl : Slots) :
    renderSlots c base.radix (isNeg V) (finalF (valueOf V) base.radix frac)
        (printedInt (magnitude V) base.radix (finalF (valueOf V) base.radix frac)) sl =
      renderedSlots c (valueOf V) base.radix frac sl := by
  have radix_gt_one : 1 < base.radix := radix_pos base
  have n_lt : finalN (valueOf V) base.radix (finalF (valueOf V) base.radix frac) < base.radix ^ 4 :=
    (finalN_lt_of_fits fits).trans_le (Nat.pow_le_pow_right (by omega) (by split <;> omega))
  rw [printedInt_eq_finalN, isNeg_eq]
  refine Slots.ext fun k => ?_
  rcases eq_colon_or_digitPos k with rfl | ⟨j, rfl⟩
  · exact renderSlots_colon ..
  · rw [renderedSlots_digitPos, renderSlots_digitPos c _ radix_gt_one ((finalF_le _ _ _).trans admitted) n_lt]

/-- A SHOWNUM that returns Done renders the closed form and flushes it, whatever the answers. -/
theorem exec_shownum_of_done {s : State} {V : ValueField} {base : Base} {frac : BitVec 3}
    (done : labelOf (.shownum V base frac) s = .done) :
    exec (.shownum V base frac) s =
      .next (s.setSlots (renderedSlots s.config (valueOf V) base.radix frac.toNat)).flushAll := by
  obtain ⟨admitted, fits⟩ := (labelOf_shownum_eq_done_iff V base frac s).mp done
  rw [← funext (renderSlots_eq_renderedSlots s.config admitted fits), exec_shownum]
  rcases showNum_cases V base frac s with ⟨reserved, -⟩ | ⟨-, -, e⟩ | ⟨-, overflows, -⟩
  · exact absurd admitted (not_le.mpr reserved)
  · rw [e]
  · exact absurd fits overflows

/-- Settles O26: the loops leave the closed form, and the flush sends it. -/
theorem renderLeavesTheClosedForm : Obligations.RenderLeavesTheClosedForm := by
  intro s V base frac admitted fits answered
  have done : labelOf (.shownum V base frac) s = .done := (labelOf_shownum_eq_done_iff V base frac s).mpr
    ⟨admitted, (fitsAt_finalF_iff (valueOf V) base frac.toNat).mpr fits⟩
  refine ⟨?_, done⟩
  rw [exec_shownum_of_done done, State.setSlots_of_idle _ answered.1, State.flushAll_after (by simpa using answered),
    List.nil_append]

/-- The digit slots that a SHOWNUM leaves, when it returns Done. -/
theorem digit_of_done {s t : State} {V : ValueField} {base : Base} {frac : BitVec 3} (idle : s.busy = false)
    (done : labelOf (.shownum V base frac) s = .done) (run : exec (.shownum V base frac) s = .next t) (j : Fin 4) :
    t.slots[digitPos j] =
      renderedWord s.config (valueOf V < 0) base.radix (finalF (valueOf V) base.radix frac.toNat)
        (finalN (valueOf V) base.radix (finalF (valueOf V) base.radix frac.toNat)) j := by
  obtain rfl := Host.Outcome.next.inj ((exec_shownum_of_done done).symm.trans run)
  rw [State.flushAll_slots, State.setSlots_of_idle _ idle, State.after_slots, renderedSlots_digitPos]

/-- Settles O32: the closed form names no slot of before. -/
theorem renderErasesEarlierDigits : Obligations.RenderErasesEarlierDigits := by
  intro s s' t t' V base frac idle idle' same_config done run run' j
  have done' : labelOf (.shownum V base frac) s' = .done := by
    rwa [labelOf_shownum_eq_done_iff, ← labelOf_shownum_eq_done_iff V base frac s]
  rw [digit_of_done idle done run, digit_of_done idle' done' run', same_config]

/-! ## The decimal point -/

theorem zext16_bit7 (b : Byte) : (zext16 b).getLsbD 7 = b.getLsbD 7 := by simp [zext16]

/-- Bit 7 is set on digit `F` from the right and nowhere else: the sign and the blanks have none (R139). -/
theorem renderedWord_point (c : Config) (neg : Bool) (b F n j : Nat) :
    (renderedWord c neg b F n j).getLsbD 7 = true ↔ F ≠ 0 ∧ j = F := by
  by_cases digit : j < digitCount b F n
  · rw [renderedWord_digit c neg digit, zext16_bit7, segEnc_point, decide_eq_true_eq]
  · have past_point : F < digitCount b F n := (Nat.lt_succ_self F).trans_le (le_max_left ..)
    refine iff_of_false ?_ (by omega)
    simp only [renderedWord, if_neg digit]
    split <;> decide

/-- Settles O30: bit 7 of the closed form. -/
theorem decimalPointStandsOnTheBoundaryDigit : Obligations.DecimalPointStandsOnTheBoundaryDigit := by
  intro s t V base frac idle done run j
  rw [digit_of_done idle done run, renderedWord_point]

/-! ## Reading a render back -/

/-- The digits of `n` in base `b`, `k` of them from the right, are worth `n` modulo `b ^ k`. -/
theorem ofDigits_range (b n k : Nat) :
    Nat.ofDigits b ((List.range k).map fun j => n / b ^ j % b) = n % b ^ k := by
  induction k with
  | zero => simp [Nat.mod_one]
  | succ k ih =>
    rw [List.range_succ, List.map_append, Nat.ofDigits_append, ih, Nat.mod_pow_succ]
    simp

/-- The digits that a render of `n` emits, from the right (R138). -/
def emittedDigits (b F n : Nat) : List (Fin 16) := (List.range (digitCount b F n)).map fun j => digitOf (n / b ^ j % b)

theorem emittedDigits_lt {base : Base} {F n : Nat} {d : Fin 16} (hd : d ∈ emittedDigits base.radix F n) :
    d.val < base.radix := by
  obtain ⟨j, -, rfl⟩ := List.mem_map.mp hd
  rw [digitOf_mod]
  exact Nat.mod_lt _ (by have := radix_pos base; omega)

@[simp] theorem length_emittedDigits (b F n : Nat) : (emittedDigits b F n).length = digitCount b F n := by
  simp [emittedDigits]

theorem ofDigits_emittedDigits (base : Base) (F n : Nat) :
    Nat.ofDigits base.radix ((emittedDigits base.radix F n).map (·.val)) = n := by
  have all_digits : n < base.radix ^ digitCount base.radix F n :=
    (Nat.digits_length_le_iff (radix_pos base) n).mp (le_max_right ..)
  rw [emittedDigits, List.map_map]
  simp only [Function.comp_def, digitOf_mod]
  rw [ofDigits_range, Nat.mod_eq_of_lt all_digits]

/-- The closed form from the right, where all of it has a slot: the digits, the sign if there is one, and blanks. -/
theorem renderedWord_range (c : Config) (neg : Bool) {b F n r : Nat} (h : digitCount b F n + neg.toNat + r = 4) :
    (List.range 4).map (renderedWord c neg b F n) =
      ((emittedDigits b F n).mapIdx fun j d => zext16 (segEnc c d (F ≠ 0 ∧ j = F))) ++
        (if neg then [0x0040] else []) ++ List.replicate r 0x0000 := by
  have digits : (List.range (digitCount b F n)).map (renderedWord c neg b F n) =
      (emittedDigits b F n).mapIdx fun j d => zext16 (segEnc c d (F ≠ 0 ∧ j = F)) := by
    refine List.ext_getElem (by simp) fun j h1 _ => ?_
    have digit : j < digitCount b F n := by simpa using h1
    simp [emittedDigits, renderedWord_digit c neg digit]
  have sign : (List.range neg.toNat).map (fun j => renderedWord c neg b F n (digitCount b F n + j)) =
      if neg then [0x0040] else [] := by
    cases neg with
    | false => rfl
    | true => exact congrArg (fun w => [w]) (renderedWord_sign c b F n)
  have blanks : (List.range r).map (fun j => renderedWord c neg b F n (digitCount b F n + neg.toNat + j)) =
      List.replicate r 0x0000 :=
    List.eq_replicate_iff.mpr ⟨by simp, fun w hw => by
      obtain ⟨j, -, rfl⟩ := List.mem_map.mp hw
      exact renderedWord_blank c neg (Nat.le_add_right _ j)⟩
  rw [← h, List.range_add, List.range_add, List.map_append, List.map_append, List.map_map, List.map_map, digits]
  exact congrArg₂ (_ ++ · ++ ·) sign blanks

/-- Under `Fits` the value's digits and its sign take no more than the four slots (R141). -/
theorem digitCount_le_of_fits {v : ℚ} {base : Base} {frac : Nat}
    (fits : fitsAt v base.radix (finalF v base.radix frac)) (within : rendersWithinSlots v base.radix frac) :
    digitCount base.radix (finalF v base.radix frac) (finalN v base.radix (finalF v base.radix frac)) +
      (decide (v < 0)).toNat ≤ 4 := by
  have ndig_le := (Nat.digits_length_le_iff (radix_pos base) _).mpr (finalN_lt_of_fits fits)
  rw [rendersWithinSlots] at within
  rw [digitCount]
  by_cases neg : v < 0
  · simp only [neg, if_true, decide_true, Bool.toNat_true] at ndig_le within ⊢
    omega
  · simp only [neg, if_false, decide_false, Bool.toNat_false] at ndig_le within ⊢
    omega

/-- Settles O27: the digits emitted are those of the printed integer, and with the sign they fill the slots from the
right. -/
theorem fittingRenderSpellsThePrintedInteger : Obligations.FittingRenderSpellsThePrintedInteger := by
  intro s V base frac admitted fits answered within
  have fits_final := (fitsAt_finalF_iff (valueOf V) base frac.toNat).mpr fits
  have done := (labelOf_shownum_eq_done_iff V base frac s).mpr ⟨admitted, fits_final⟩
  obtain ⟨t, run⟩ := exec_next (.shownum V base frac) s
  have digits := digit_of_done answered.1 done run
  have count_le := digitCount_le_of_fits fits_final within
  have sign_count : (if valueOf V < 0 then 1 else 0) = (decide (valueOf V < 0)).toNat := by split <;> simp [*]
  set F := finalF (valueOf V) base.radix frac.toNat
  set n := finalN (valueOf V) base.radix F
  refine ⟨t, emittedDigits base.radix F n, run, fun d => emittedDigits_lt, ?_, ofDigits_emittedDigits base F n, ?_⟩
  · rw [length_emittedDigits]
    exact (Nat.lt_succ_self F).trans_le (le_max_left ..)
  · have from_right : [t.slots[4], t.slots[3], t.slots[1], t.slots[0]] =
        (List.range 4).map (renderedWord s.config (valueOf V < 0) base.radix F n) :=
      congr (congrArg _ (digits 0)) (congr (congrArg _ (digits 1)) (congr (congrArg _ (digits 2))
        (congrArg (fun w => [w]) (digits 3))))
    rw [from_right, length_emittedDigits, sign_count, renderedWord_range s.config _ (Nat.add_sub_cancel' count_le),
      Nat.sub_sub]
    simp only [decide_eq_true_eq]

end Sys2Proof.Machine
end
